-- ==== Sys2Proof/Word.lean ====
section
/-! DEFINITION. The word types of the machine (00_scope.md R9, R12, R15) and their plainest arithmetic. -/

namespace Sys2Proof

/-- A memory byte or a general register (`u8`). -/
abbrev Byte := BitVec 8
/-- An instruction word, a return address, `I`, `PC` or `SP` (`u16`). -/
abbrev Word := BitVec 16
/-- A display row mask (`u64`); bit 63 is the leftmost pixel (00_scope.md R13). -/
abbrev Row := BitVec 64
/-- The number of a general register, V0 to VF (10_state.md R32). -/
abbrev RegIdx := BitVec 4
/-- The number of a display row, 0 (top) to 31 (10_state.md R43). -/
abbrev RowIdx := BitVec 5

/-- `wrap8(n)` of 00_scope.md R15. -/
def wrap8 (n : Nat) : Byte := BitVec.ofNat 8 n

/-- `wrap16(n)` of 00_scope.md R15. -/
def wrap16 (n : Nat) : Word := BitVec.ofNat 16 n

/-- `bool(c)` of 00_scope.md R15, as the byte a flag register receives. -/
def boolByte (c : Bool) : Byte := if c then 1 else 0

end Sys2Proof
end

