-- ==== Sys2Proof/Config.lean ====
section
/-! DEFINITION. What an implementation fixes (the open parameters of 00_scope.md R10) as types, and the free value of
the machine. The values the boot machine takes are in Machine/Params.lean. -/

namespace Sys2Proof

/-- `END_PC`, the end-of-program threshold (40_step_cycle.md R152, conflict C2). -/
inductive EndPc where
  /-- 0xFFF, the spec's value. -/
  | memTop
  /-- 0xFFE, the open alternative. -/
  | lastSlot
  deriving DecidableEq, Repr

/-- `FONT_STRIDE`, the glyph stride of Fx29 (43_index_memory.md R223, conflict C3). -/
inductive FontStride where
  /-- 5, the spec's value. -/
  | five
  /-- 1, the literal formula. -/
  | one
  deriving DecidableEq, Repr

/-- `KEY_NONE_CODE`, the register value that "no key" compares equal to (45_timers_keys.md R260). -/
inductive KeyNoneCode where
  /-- This byte; the spec takes 16 and allows 16 to 255. -/
  | code (c : Byte)
  /-- "Compares unequal to every byte." -/
  | unequal
  deriving DecidableEq, Repr

/-- `BNNN_MODE`, the reading of family B (30_encoding.md R132, conflict C5). -/
inductive BnnnMode where
  /-- Bnnn is `Unspecified`, the spec's default. -/
  | refuse
  /-- Bnnn is `Unknown`, a no-op. -/
  | unknownNoop
  /-- Bnnn jumps to nnn + V0. -/
  | jumpV0
  deriving DecidableEq, Repr

/-- `VF_DEST_ORDER`, which of the two writes to VF stays (42_alu.md R191). -/
inductive VfDestOrder where
  /-- The order the source lists them in, the spec's default. -/
  | listed
  /-- The flag last, in all five instructions. -/
  | flagLast
  deriving DecidableEq, Repr

/-- `UNWRITTEN_READ`: what initialisation leaves in WRITTEN (10_state.md R51). -/
inductive UnwrittenRead where
  /-- WRITTEN is empty and a read of an unwritten field faults, the spec's default. -/
  | fault
  /-- WRITTEN holds every tracked field, each with its launch value. -/
  | launchValue
  deriving DecidableEq, Repr

/-- The open parameters that a step reads (00_scope.md R10). They are plain data, fixed for the machine. -/
structure Params where
  endPc       : EndPc
  fontStride  : FontStride
  /-- `STACK_LIMIT`: an even address in 0x054 to 0x1000 (20_memory.md R93). -/
  stackLimit  : Word
  keyNone     : KeyNoneCode
  bnnnMode    : BnnnMode
  vfDestOrder : VfDestOrder
  deriving DecidableEq, Repr

/-- FREE VALUE (log entry 14): the random byte that the n-th execution of Cxnn since reset draws. "Randomness source is
an external collaborator": a draw under no law (42_alu.md R203, 60_exceptions.md R321), so nothing here says what it is. -/
opaque Config.randByte : Nat → Byte

end Sys2Proof
end

