-- ==== Sys2Proof/Machine/Params.lean ====
section
/-! DEFINITION. The constants of 00_scope.md R9, the numbers the open parameters of R10 stand for, the parameters of the
boot machine, and the font of 10_state.md R36. -/

namespace Sys2Proof

/-- `END_PC` as a number. -/
def EndPc.value : EndPc → Nat
  | .memTop => 0xFFF
  | .lastSlot => 0xFFE

/-- `FONT_STRIDE` as a number. -/
def FontStride.value : FontStride → Nat
  | .five => 5
  | .one => 1

namespace Machine

/-- `MEM_SIZE`. -/
def memSize : Nat := 4096
/-- `PROG_BASE`, first byte of the loaded program, also `PC_RESET`. -/
def progBase : Nat := 0x200
/-- `PC_RESET`. -/
def pcReset : Word := 0x200
/-- `STACK_BASE`, the stack pointer at initialisation. -/
def stackBase : Word := 0x052
/-- `FONT_BASE`. -/
def fontBase : Nat := 0x050

/-- The spec's value of every open parameter that a step reads (00_scope.md R10). -/
def specParams : Params where
  endPc := .memTop
  fontStride := .five
  stackLimit := 0x200
  keyNone := .code 16
  bnnnMode := .refuse
  vfDestOrder := .listed

/-- The parameters of the machine after reset: the spec's values, but that Bnnn has the effect the opcode table's row
`JP V0, nnn` gives it, one of the three the spec allows (30_encoding.md R132). DESIGN CHOICE, unsafe (log entry 9). -/
def bootParams : Params := { specParams with bnnnMode := .jumpV0 }

/-- `UNWRITTEN_READ` of the machine after reset: `launch_value`, one of the two the spec allows (10_state.md R51), so that
no register read faults for want of a write. DESIGN CHOICE, unsafe (log entry 1). -/
def bootUnwrittenRead : UnwrittenRead := .launchValue

/-- Glyphs 0 to 3 of 10_state.md R36. -/
def glyphs0to3 : List Byte :=
  [0xF0, 0x90, 0x90, 0x90, 0xF0] ++ [0x20, 0x60, 0x20, 0x20, 0x70] ++ [0xF0, 0x10, 0xF0, 0x80, 0xF0] ++
  [0xF0, 0x10, 0xF0, 0x10, 0xF0]
/-- Glyphs 4 to 7 of 10_state.md R36. -/
def glyphs4to7 : List Byte :=
  [0x90, 0x90, 0xF0, 0x10, 0x10] ++ [0xF0, 0x80, 0xF0, 0x10, 0xF0] ++ [0xF0, 0x80, 0xF0, 0x90, 0xF0] ++
  [0xF0, 0x10, 0x20, 0x40, 0x40]
/-- Glyphs 8 to B of 10_state.md R36. -/
def glyphs8toB : List Byte :=
  [0xF0, 0x90, 0xF0, 0x90, 0xF0] ++ [0xF0, 0x90, 0xF0, 0x10, 0xF0] ++ [0xF0, 0x90, 0xF0, 0x90, 0x90] ++
  [0xE0, 0x90, 0xE0, 0x90, 0xE0]
/-- Glyphs C to F of 10_state.md R36. -/
def glyphsCtoF : List Byte :=
  [0xF0, 0x80, 0x80, 0x80, 0xF0] ++ [0xE0, 0x90, 0x90, 0x90, 0xE0] ++ [0xF0, 0x80, 0xF0, 0x80, 0xF0] ++
  [0xF0, 0x80, 0xF0, 0x80, 0x80]

/-- The 80 bytes of the spec's default `FONT` (10_state.md R36), glyph 0 first. DESIGN CHOICE, unsafe (log entry 4). -/
def fontTable : List Byte := glyphs0to3 ++ glyphs4to7 ++ glyphs8toB ++ glyphsCtoF

end Machine
end Sys2Proof
end

