-- ==== Sys2Proof/WellFormed.lean ====
section
/-! DEFINITION. Which instructions and which parameters are well formed. The field types of `Instr` already bound every
field, so the one check on an instruction is whether the machine has it: Bnnn is an instruction under
`BNNN_MODE = jump_v0` only (30_encoding.md R132). -/

namespace Sys2Proof

/-- The instruction is one the decoder can give under this `BNNN_MODE` (30_encoding.md R114, R132). -/
def Instr.wellFormed (mode : BnnnMode) : Instr → Bool
  | .jpV0 _ => decide (mode = .jumpV0)
  | .cls | .ret | .jp _ | .call _ | .seImm _ _ | .sneImm _ _ | .seReg _ _ | .ldImm _ _ | .addImm _ _ | .ldReg _ _ => true
  | .orReg _ _ | .andReg _ _ | .xorReg _ _ | .addReg _ _ | .subReg _ _ | .shr _ _ | .subnReg _ _ | .shl _ _ => true
  | .sneReg _ _ | .ldI _ | .rnd _ _ | .drw _ _ _ | .skp _ | .sknp _ | .ldVxDt _ | .ldVxK _ | .ldDtVx _ => true
  | .ldStVx _ | .addI _ | .ldF _ | .ldB _ | .storeRegs _ | .loadRegs _ => true

/-- The parameters lie in the ranges 00_scope.md R10 allows: an even `STACK_LIMIT` in 0x054 to 0x1000, and a
`KEY_NONE_CODE` of 16 to 255. -/
def Params.wellFormed (p : Params) : Bool :=
  decide (p.stackLimit.toNat % 2 = 0) && decide (0x054 ≤ p.stackLimit.toNat) && decide (p.stackLimit.toNat ≤ 0x1000) &&
    match p.keyNone with
    | .code c => decide (16 ≤ c.toNat)
    | .unequal => true

end Sys2Proof
end

