-- ==== Sys2Proof/Decode.lean ====
section
/-! DEFINITION. The decoder, total on every word (30_encoding.md R114, R123) and on any bytes, and after it the encoder
(R122). -/

namespace Sys2Proof

/-- What a word decodes to (30_encoding.md R114). -/
inductive Decoded where
  /-- An instruction of the opcode map. -/
  | instr (i : Instr)
  /-- An unlisted word that acts as a no-op (R130). -/
  | unknown
  /-- A word the spec gives no single meaning; executing it faults (R131, R132). -/
  | unspecified
  deriving DecidableEq, Repr

/-- Bits `lo + 3` to `lo` of a word: the nibbles n1 to n4 of 30_encoding.md R111. -/
def nibble (w : Word) (lo : Nat) : BitVec 4 := w.extractLsb' lo 4
/-- `nn = w[7:0]`. -/
def immByte (w : Word) : Byte := w.extractLsb' 0 8
/-- `nnn = w[11:0]`. -/
def immAddr (w : Word) : BitVec 12 := w.extractLsb' 0 12

/-- Family 0 (30_encoding.md R116). -/
def decodeFamily0 (nnn : BitVec 12) : Decoded :=
  if nnn = 0x0E0 then .instr .cls
  else if nnn = 0x0EE then .instr .ret
  else .unknown

/-- Family 8 (30_encoding.md R117). -/
def decodeFamily8 (x y n : BitVec 4) : Decoded :=
  if n = 0x0 then .instr (.ldReg x y)
  else if n = 0x1 then .instr (.orReg x y)
  else if n = 0x2 then .instr (.andReg x y)
  else if n = 0x3 then .instr (.xorReg x y)
  else if n = 0x4 then .instr (.addReg x y)
  else if n = 0x5 then .instr (.subReg x y)
  else if n = 0x6 then .instr (.shr x y)
  else if n = 0x7 then .instr (.subnReg x y)
  else if n = 0xE then .instr (.shl x y)
  else .unknown

/-- Family B under the parameter `BNNN_MODE` (30_encoding.md R132). -/
def decodeFamilyB (mode : BnnnMode) (nnn : BitVec 12) : Decoded :=
  match mode with
  | .refuse => .unspecified
  | .unknownNoop => .unknown
  | .jumpV0 => .instr (.jpV0 nnn)

/-- Family E (30_encoding.md R118). -/
def decodeFamilyE (x : BitVec 4) (nn : Byte) : Decoded :=
  if nn = 0x9E then .instr (.skp x)
  else if nn = 0xA1 then .instr (.sknp x)
  else .unknown

/-- Family F (30_encoding.md R119). -/
def decodeFamilyF (x : BitVec 4) (nn : Byte) : Decoded :=
  if nn = 0x07 then .instr (.ldVxDt x)
  else if nn = 0x0A then .instr (.ldVxK x)
  else if nn = 0x15 then .instr (.ldDtVx x)
  else if nn = 0x18 then .instr (.ldStVx x)
  else if nn = 0x1E then .instr (.addI x)
  else if nn = 0x29 then .instr (.ldF x)
  else if nn = 0x33 then .instr (.ldB x)
  else if nn = 0x55 then .instr (.storeRegs x)
  else if nn = 0x65 then .instr (.loadRegs x)
  else .unknown

/-- The decoder of 30_encoding.md R123: the first dispatch is on n1 (R115). It reads nothing but the word and the
parameter `BNNN_MODE`. -/
def decode (mode : BnnnMode) (w : Word) : Decoded :=
  let n1 := nibble w 12
  let x := nibble w 8
  let y := nibble w 4
  let n := nibble w 0
  let nn := immByte w
  let nnn := immAddr w
  if n1 = 0x0 then decodeFamily0 nnn
  else if n1 = 0x1 then .instr (.jp nnn)
  else if n1 = 0x2 then .instr (.call nnn)
  else if n1 = 0x3 then .instr (.seImm x nn)
  else if n1 = 0x4 then .instr (.sneImm x nn)
  else if n1 = 0x5 then (if n = 0 then .instr (.seReg x y) else .unspecified)
  else if n1 = 0x6 then .instr (.ldImm x nn)
  else if n1 = 0x7 then .instr (.addImm x nn)
  else if n1 = 0x8 then decodeFamily8 x y n
  else if n1 = 0x9 then (if n = 0 then .instr (.sneReg x y) else .unspecified)
  else if n1 = 0xA then .instr (.ldI nnn)
  else if n1 = 0xB then decodeFamilyB mode nnn
  else if n1 = 0xC then .instr (.rnd x nn)
  else if n1 = 0xD then .instr (.drw x y n)
  else if n1 = 0xE then decodeFamilyE x nn
  else decodeFamilyF x nn

/-- Two bytes as a big-endian word, the first byte high (20_memory.md R85). -/
def wordOfBytes (hi lo : Byte) : Word := hi ++ lo
/-- The high byte of a word, the one at the lower address (20_memory.md R85, R86). -/
def hiByte (w : Word) : Byte := w.extractLsb' 8 8
/-- The low byte of a word. -/
def loByte (w : Word) : Byte := w.extractLsb' 0 8

/-- Why a byte stream gives no instruction. -/
inductive DecodeReject where
  /-- The word is `Unknown` (30_encoding.md R130). -/
  | unknown (w : Word)
  /-- The word is `Unspecified` (30_encoding.md R131, R132). -/
  | unspecified (w : Word)
  /-- Fewer than two bytes are left. -/
  | truncated
  deriving DecidableEq, Repr

/-- The decoder on a byte stream: the instruction and the bytes after it (30_encoding.md R134: every word is 2 bytes). -/
def decodeBytes (mode : BnnnMode) : List Byte → Except DecodeReject (Instr × List Byte)
  | hi :: lo :: rest =>
    match decode mode (wordOfBytes hi lo) with
    | .instr i => .ok (i, rest)
    | .unknown => .error (.unknown (wordOfBytes hi lo))
    | .unspecified => .error (.unspecified (wordOfBytes hi lo))
  | [_] => .error .truncated
  | [] => .error .truncated

/-- The instruction this decoder reads from the word `w` of `nbits` bits, laid out as the hardware stores it (big-endian,
20_memory.md R85), under the boot machine's `BNNN_MODE`. -/
def decodeTableWord (nbits w : Nat) : Option Instr :=
  let word := wrap16 (w % 2 ^ nbits)
  match decodeBytes Machine.bootParams.bnnnMode [hiByte word, loByte word] with
  | .ok (i, _) => some i
  | .error _ => none

/-- `N-nnn`: a family nibble and a 12-bit immediate (30_encoding.md R122). -/
def encodeAddr (n1 : BitVec 4) (nnn : BitVec 12) : Word := n1 ++ nnn
/-- `N-x-nn` and `N-x-NN`: a family nibble, x and a byte. -/
def encodeByte (n1 x : BitVec 4) (nn : Byte) : Word := (n1 ++ x) ++ nn
/-- `N-x-y-N` and `N-x-y-n`: four nibbles. -/
def encodeNibbles (n1 x y n : BitVec 4) : Word := (n1 ++ x) ++ (y ++ n)

/-- The word of an instruction: its pattern with each field letter replaced by its value (30_encoding.md R122, R135). -/
def encode : Instr → Word
  | .cls => encodeAddr 0x0 0x0E0
  | .ret => encodeAddr 0x0 0x0EE
  | .jp nnn => encodeAddr 0x1 nnn
  | .call nnn => encodeAddr 0x2 nnn
  | .seImm x nn => encodeByte 0x3 x nn
  | .sneImm x nn => encodeByte 0x4 x nn
  | .seReg x y => encodeNibbles 0x5 x y 0x0
  | .ldImm x nn => encodeByte 0x6 x nn
  | .addImm x nn => encodeByte 0x7 x nn
  | .ldReg x y => encodeNibbles 0x8 x y 0x0
  | .orReg x y => encodeNibbles 0x8 x y 0x1
  | .andReg x y => encodeNibbles 0x8 x y 0x2
  | .xorReg x y => encodeNibbles 0x8 x y 0x3
  | .addReg x y => encodeNibbles 0x8 x y 0x4
  | .subReg x y => encodeNibbles 0x8 x y 0x5
  | .shr x y => encodeNibbles 0x8 x y 0x6
  | .subnReg x y => encodeNibbles 0x8 x y 0x7
  | .shl x y => encodeNibbles 0x8 x y 0xE
  | .sneReg x y => encodeNibbles 0x9 x y 0x0
  | .ldI nnn => encodeAddr 0xA nnn
  | .jpV0 nnn => encodeAddr 0xB nnn
  | .rnd x nn => encodeByte 0xC x nn
  | .drw x y n => encodeNibbles 0xD x y n
  | .skp x => encodeByte 0xE x 0x9E
  | .sknp x => encodeByte 0xE x 0xA1
  | .ldVxDt x => encodeByte 0xF x 0x07
  | .ldVxK x => encodeByte 0xF x 0x0A
  | .ldDtVx x => encodeByte 0xF x 0x15
  | .ldStVx x => encodeByte 0xF x 0x18
  | .addI x => encodeByte 0xF x 0x1E
  | .ldF x => encodeByte 0xF x 0x29
  | .ldB x => encodeByte 0xF x 0x33
  | .storeRegs x => encodeByte 0xF x 0x55
  | .loadRegs x => encodeByte 0xF x 0x65

/-- The bytes of an instruction as memory holds them (20_memory.md R85). -/
def encodeBytes (i : Instr) : List Byte := [hiByte (encode i), loByte (encode i)]

end Sys2Proof
end

