-- ==== Sys2Proof/Machine/State.lean ====
section
/-! DEFINITION. The state of the block (10_state.md R30) as plain data, the reasons a step can stop for, and the state
after reset. -/

namespace Sys2Proof.Machine

/-- A tracked field: one the source gives no initial value for (10_state.md R51). -/
inductive Field where
  | v (x : RegIdx)
  | i
  | dt
  | st
  | key
  | disp (r : RowIdx)
  deriving DecidableEq, Repr

/-- The fault reasons of 60_exceptions.md R305, a closed list, each with its info. A step that raises one answers a NEXT
state in which FAULT holds the reason (`State.raise`; 00_scope.md R17) and nothing else has changed: no meaning and no
transaction answers `Outcome.fault` (log entry 12). Every one stands for behaviour the source leaves undefined, where the
reference may go on. Stopping there is safe for a claim that concludes FAULT = None, as R312 asks of every claim. -/
inductive Fault where
  /-- Code 1, the first address above 0xFFF. Raised by Dxyn, Fx33, Fx55 and Fx65 (20_memory.md R84), and by a push or pop
  whose frame is outside memory, which no run reaches (00_scope.md R16, log entry 13). Safe. -/
  | memOutOfRange (addr : Nat)
  /-- Code 2, I before the instruction. Raised by Fx1E (43_index_memory.md R222). Safe. -/
  | indexWrap (i : Word)
  /-- Code 3, SP. Raised by 2nnn (20_memory.md R99). Safe. -/
  | stackOverflow (sp : Word)
  /-- Code 4, SP. Raised by 00EE (20_memory.md R100). Safe. -/
  | stackUnderflow (sp : Word)
  /-- Code 5, the word. Raised by the step that executes an `Unspecified` word (40_step_cycle.md R158). Safe. -/
  | unspecifiedOpcode (w : Word)
  /-- Code 6, the field. Raised by any instruction that reads a tracked field not in WRITTEN (10_state.md R51). Safe. -/
  | unwrittenRead (f : Field)
  deriving DecidableEq, Repr

/-- Why a move is refused. A step refuses nothing once every instruction has its meaning; the host's moves of
Machine/Session.lean raise the last two. -/
inductive Refusal where
  /-- An instruction without a meaning, by its mnemonic in spec/opcode_table.json. Raised by an arm of `exec` that has none
  (there is no such arm). Safe. -/
  | notModelled (mnemonic : String)
  /-- `load_program` a second time or after a step: no move of the model (70_reset_and_hazards.md R354, U18). Raised by
  `Session.transact`. Safe. -/
  | loadNotAdmitted
  /-- `set_key_pressed` with a code above 15: no move of the model (60_exceptions.md R316, U19). Raised by
  `Session.transact`. Safe. -/
  | keyCodeAbove15 (code : Nat)
  deriving DecidableEq, Repr

/-- What FAULT records (10_state.md R47, 60_exceptions.md R306). -/
structure FaultRecord where
  reason : Fault
  pc     : Word
  word   : Word
  deriving DecidableEq, Repr

/-- The set WRITTEN of 10_state.md R51: one bit for each tracked field. -/
structure Written where
  v    : Vector Bool 16
  i    : Bool
  dt   : Bool
  st   : Bool
  key  : Bool
  disp : Vector Bool 32
  deriving DecidableEq, Repr

/-- The state of the block: the tuple of 10_state.md R30, and two fields of the model's own. -/
structure State where
  /-- MODEL'S OWN: the open parameters of 00_scope.md R10, fixed for the machine (log entry 11). -/
  params  : Params
  /-- `MEM` (R31): the cells that differ from `Mem.unlisted`, at strictly rising addresses. -/
  mem     : List Host.Cell
  /-- `V[0]` to `V[15]` (R32). -/
  v       : Vector Byte 16
  /-- `I` (R35). -/
  i       : Word
  /-- `PC` (R37). -/
  pc      : Word
  /-- `SP` (R39). -/
  sp      : Word
  /-- `DT` (R40). -/
  dt      : Byte
  /-- `ST` (R41). -/
  st      : Byte
  /-- `KEY` (R42): `none` is "no key pressed". -/
  key     : Option (BitVec 4)
  /-- `DISP[0]` to `DISP[31]` (R43). -/
  disp    : Vector Row 32
  /-- `EOP` (R44). -/
  eop     : Bool
  /-- `FAULT` (R47). -/
  fault   : Option FaultRecord
  /-- `WRITTEN` (R51). -/
  written : Written
  /-- MODEL'S OWN: how many random bytes have been drawn, the index of the free value `Config.randByte` (log entry 14). -/
  draws   : Nat
  deriving DecidableEq, Repr

/-- WRITTEN with no field in it (`UNWRITTEN_READ = fault` at initialisation, R51). -/
def Written.none : Written where
  v := Vector.replicate 16 false
  i := false
  dt := false
  st := false
  key := false
  disp := Vector.replicate 32 false

/-- WRITTEN with every tracked field in it (`UNWRITTEN_READ = launch_value`, R51). -/
def Written.all : Written where
  v := Vector.replicate 16 true
  i := true
  dt := true
  st := true
  key := true
  disp := Vector.replicate 32 true

/-- The machine right after initialisation (10_state.md R49, 70_reset_and_hazards.md R350), before `load_program`: PC, SP,
EOP, FAULT and the font as the spec says. The launch values the spec leaves open are those of the named premise
CleanLaunch (R356): DESIGN CHOICE, unsafe (log entries 1 to 3). `Machine/Port.lean` has `init` for every launch value. -/
def State.reset : State where
  params := bootParams
  mem := []
  v := Vector.replicate 16 0
  i := 0
  pc := pcReset
  sp := stackBase
  dt := 0
  st := 0
  key := Option.none
  disp := Vector.replicate 32 0
  eop := false
  fault := Option.none
  written := Written.all
  draws := 0

end Sys2Proof.Machine
end

