-- ==== Sys2Proof/Machine/Ops.lean ====
section
/-! DEFINITION. The named operations over memory and registers, taking a fault (00_scope.md R17), the ways PC moves
(40_step_cycle.md R155) and the stack primitives (20_memory.md R99, R100). Every instruction reads and writes state
through these. -/

namespace Sys2Proof.Machine

/-- What a step or a meaning answers. -/
abbrev Result := Host.Outcome State Fault Refusal

/-! ### Memory -/

/-- What an address that no cell lists reads as: the default FONT at 0x050 to 0x09F (10_state.md R36, R49), else 0
(DESIGN CHOICE, unsafe, log entry 3). -/
def Mem.unlisted (a : Nat) : Byte :=
  if fontBase ≤ a ∧ a < fontBase + 80 then fontTable.getD (a - fontBase) 0 else 0

/-- The byte at an address. -/
def Mem.read : List Host.Cell → Nat → Byte
  | [], a => Mem.unlisted a
  | c :: m, a => if c.1 = a then c.2 else Mem.read m a

/-- The memory without a cell for `a`. -/
def Mem.erase (m : List Host.Cell) (a : Nat) : List Host.Cell := m.filter fun c => c.1 != a

/-- The memory with the cell `(a, b)` put before the first cell of a higher address. -/
def Mem.insert (a : Nat) (b : Byte) : List Host.Cell → List Host.Cell
  | [] => [(a, b)]
  | c :: m => if a < c.1 then (a, b) :: c :: m else c :: Mem.insert a b m

/-- The memory with `b` at `a`: no cell is kept for a byte equal to what an unlisted address reads as. -/
def Mem.write (m : List Host.Cell) (a : Nat) (b : Byte) : List Host.Cell :=
  if b = Mem.unlisted a then Mem.erase m a else Mem.insert a b (Mem.erase m a)

/-- `bytes` at `base` and the addresses after it, in order. -/
def Mem.writeAll (base : Nat) : List Byte → List Host.Cell → List Host.Cell
  | [], m => m
  | b :: bs, m => Mem.writeAll (base + 1) bs (Mem.write m base b)

/-- The cells stand at strictly rising addresses, all above `lo` if there is a bound, all inside memory, none equal to what
an unlisted address reads as. -/
def Mem.wfFrom : Option Nat → List Host.Cell → Bool
  | _, [] => true
  | lo, c :: m =>
    (match lo with
      | some k => decide (k < c.1)
      | none => true) &&
    decide (c.1 < memSize) && decide (c.2 ≠ Mem.unlisted c.1) && Mem.wfFrom (some c.1) m

/-- The memory is in its one canonical form. -/
def Mem.wf (m : List Host.Cell) : Bool := Mem.wfFrom none m

/-- `MemRead(addr, 1)` of 00_scope.md R16. -/
def State.byte (s : State) (a : Nat) : Byte := Mem.read s.mem a
/-- `MemWrite(addr, 1, b)`. -/
def State.setByte (s : State) (a : Nat) (b : Byte) : State := { s with mem := Mem.write s.mem a b }
/-- `MemRead(addr, 2)`: big-endian (R16, 20_memory.md R85). -/
def State.word (s : State) (a : Nat) : Word := wordOfBytes (s.byte a) (s.byte (a + 1))
/-- `MemWrite(addr, 2, w)`: big-endian (R16, 20_memory.md R86). -/
def State.setWord (s : State) (a : Nat) (w : Word) : State := (s.setByte a (hiByte w)).setByte (a + 1) (loByte w)

/-! ### WRITTEN and the tracked fields (10_state.md R51) -/

/-- The field is in WRITTEN. -/
def State.has (s : State) : Field → Bool
  | .v x => s.written.v[x.toNat]'x.isLt
  | .i => s.written.i
  | .dt => s.written.dt
  | .st => s.written.st
  | .key => s.written.key
  | .disp r => s.written.disp[r.toNat]'r.isLt

/-- `V[x]`. -/
def State.getV (s : State) (x : RegIdx) : Byte := s.v[x.toNat]'x.isLt
/-- `DISP[r]`. -/
def State.getRow (s : State) (r : RowIdx) : Row := s.disp[r.toNat]'r.isLt

/-- `V[x] <- b`; every write of a tracked field adds it to WRITTEN. -/
def State.setV (s : State) (x : RegIdx) (b : Byte) : State :=
  { s with v := s.v.set x.toNat b x.isLt, written := { s.written with v := s.written.v.set x.toNat true x.isLt } }
/-- `I <- w`. -/
def State.setI (s : State) (w : Word) : State := { s with i := w, written := { s.written with i := true } }
/-- `DT <- b`. -/
def State.setDt (s : State) (b : Byte) : State := { s with dt := b, written := { s.written with dt := true } }
/-- `ST <- b`. -/
def State.setSt (s : State) (b : Byte) : State := { s with st := b, written := { s.written with st := true } }
/-- `KEY <- k`; only the host's transactions do this (R42). -/
def State.setKey (s : State) (k : Option (BitVec 4)) : State :=
  { s with key := k, written := { s.written with key := true } }
/-- `DISP[r] <- w`. -/
def State.setRow (s : State) (r : RowIdx) (w : Row) : State :=
  { s with disp := s.disp.set r.toNat w r.isLt, written := { s.written with disp := s.written.disp.set r.toNat true r.isLt } }
/-- `DISP[r] <- 0` for every row (44_display.md R241). -/
def State.clearRows (s : State) : State :=
  { s with disp := Vector.replicate 32 0, written := { s.written with disp := Vector.replicate 32 true } }
/-- `SP <- w`. -/
def State.setSp (s : State) (w : Word) : State := { s with sp := w }
/-- `PC <- w`. -/
def State.setPc (s : State) (w : Word) : State := { s with pc := w }
/-- One more random byte has been drawn (60_exceptions.md R321). -/
def State.countDraw (s : State) : State := { s with draws := s.draws + 1 }

/-! ### Fetch and taking a fault -/

/-- The instruction word at PC: `MEM[PC] ++ MEM[PC+1]` (40_step_cycle.md R153). -/
def State.fetchWord (s : State) : Word := s.word s.pc.toNat

/-- The state a raised fault leaves: FAULT records the reason, the PC and the word of the step, and nothing else changes
(00_scope.md R17, 60_exceptions.md R306, R307). The word is the one at PC, which the step fetched (log entry 16). -/
def State.raised (s : State) (r : Fault) : State :=
  { s with fault := some { reason := r, pc := s.pc, word := s.fetchWord } }

/-- `raise <Fault>(info)` of 00_scope.md R17: the transaction ends, and the machine goes on to the faulted state of
60_exceptions.md R312, in which every step returns at once. There is no return from it. -/
def State.raise (s : State) (r : Fault) : Result := .next (s.raised r)

/-! ### How PC moves (40_step_cycle.md R155) -/

/-- `advance`: `PC <- wrap16(PC + 2)`. -/
def State.advance (s : State) : State := s.setPc (s.pc + 2)
/-- `skip(c)`: PC moves by 4 if `c`, else by 2. -/
def State.skip (s : State) (c : Bool) : State := s.setPc (if c then s.pc + 4 else s.pc + 2)

/-! ### Checks that come before every write -/

/-- The first of `fs` that is not in WRITTEN. -/
def State.firstUnwritten (s : State) (fs : List Field) : Option Field := fs.find? fun f => !s.has f

/-- Read the tracked fields `fs` in this order, then go on; the first that is not in WRITTEN raises `UnwrittenRead`
(10_state.md R51, 60_exceptions.md R309). Under `launch_value` WRITTEN holds every field and no read faults (log entry 22). -/
def State.reading (s : State) (fs : List Field) (k : Result) : Result :=
  match s.firstUnwritten fs with
  | some f => s.raise (.unwrittenRead f)
  | none => k

/-- Touch the `n` addresses from `base` on, then go on; if one lies above 0xFFF raise `MemOutOfRange` with the first such
address (20_memory.md R84, 43_index_memory.md R220). Touching no address raises nothing. -/
def State.accessing (s : State) (base n : Nat) (k : Result) : Result :=
  if 0 < n ∧ memSize < base + n then s.raise (.memOutOfRange (max base memSize)) else k

/-! ### Stack primitives (20_memory.md R99, R100) -/

/-- The state after a push of `w`. -/
def State.pushed (s : State) (w : Word) : State := (s.setWord s.sp.toNat w).setSp (s.sp + 2)

/-- `Push(w)`, then go on with the state it leaves. `StackOverflow` comes first; the check of the frame's addresses (R16)
can fail only in a state no run reaches (log entry 13). -/
def State.push (s : State) (w : Word) (k : State → Result) : Result :=
  if s.params.stackLimit.toNat < s.sp.toNat + 2 then s.raise (.stackOverflow s.sp)
  else s.accessing s.sp.toNat 2 (k (s.pushed w))

/-- The word a pop gives. -/
def State.topOfStack (s : State) : Word := s.word (s.sp.toNat - 2)

/-- The state after a pop: SP two lower, the frame's two bytes zero. -/
def State.popped (s : State) : State := (s.setSp (s.sp - 2)).setWord (s.sp.toNat - 2) 0

/-- `Pop()`, then go on with the word and the state it leaves. `StackUnderflow` comes first; the check of the frame's
addresses (R16) can fail only in a state no run reaches (log entry 13). -/
def State.pop (s : State) (k : Word → State → Result) : Result :=
  if s.sp.toNat < stackBase.toNat + 2 then s.raise (.stackUnderflow s.sp)
  else s.accessing (s.sp.toNat - 2) 2 (k s.topOfStack s.popped)

end Sys2Proof.Machine
end

