-- ==== Sys2Proof/Machine/Cycle.lean ====
section
/-! DEFINITION. What a step does around `exec` (40_step_cycle.md R150 to R159): the fault check, the end check, fetch and
decode, and the words that are no instruction; the diagnostic event; and placing an instruction at PC. -/

namespace Sys2Proof.Machine

/-- What a step does with a state: it is done with this next state, or it executes this instruction. -/
inductive Cycle where
  | done (t : State)
  | execute (i : Instr)
  deriving DecidableEq, Repr

/-- The state after a step that finds `PC >= END_PC`: EOP is set and nothing else changes (R152). -/
def State.ended (s : State) : State := { s with eop := true }

/-- `PC >= END_PC` (R152). -/
def State.atEnd (s : State) : Bool := decide (s.params.endPc.value ≤ s.pc.toNat)

/-- What the word at PC decodes to (R153, R154). -/
def State.decoded (s : State) : Decoded := decode s.params.bnnnMode s.fetchWord

/-- The checks of a step in their order (R156, 60_exceptions.md R309). -/
def State.cycle (s : State) : Cycle :=
  if s.fault.isSome then .done s
  else if s.atEnd then .done s.ended
  else
    match s.decoded with
    | .unknown => .done s.advance
    | .unspecified => .done (s.raised (.unspecifiedOpcode s.fetchWord))
    | .instr i => .execute i

/-- The output event `diag(UnknownOpcode, pc, w)` (60_exceptions.md R303). -/
structure Diag where
  pc   : Word
  word : Word
  deriving DecidableEq, Repr

/-- The event that a step from this state emits: one when it executes an `Unknown` word, none otherwise (R157). It is an
output, not state (10_state.md R50, log entry 17). -/
def State.stepDiag (s : State) : Option Diag :=
  if s.fault.isSome then none
  else if s.atEnd then none
  else
    match s.decoded with
    | .unknown => some { pc := s.pc, word := s.fetchWord }
    | .unspecified => none
    | .instr _ => none

/-- The state with the instruction word `w` in memory at PC. -/
def State.placeWord (s : State) (w : Word) : State := s.setWord s.pc.toNat w

end Sys2Proof.Machine
end

