-- ==== Sys2Proof/Machine/Flags.lean ====
section
/-! DEFINITION. The flag computations of the ALU (42_alu.md R190), each on the values before the instruction and exact on
naturals, and the order of the two writes when VF is also the destination (R191). -/

namespace Sys2Proof.Machine

/-- `VF`, register 15 (10_state.md R34). -/
def vf : RegIdx := 0xF

/-- `wrap8(a + b)`. -/
def sumByte (a b : Byte) : Byte := wrap8 (a.toNat + b.toNat)
/-- `wrap8(a + 256 - b)`. -/
def diffByte (a b : Byte) : Byte := wrap8 (a.toNat + 256 - b.toNat)
/-- `a >> 1`. -/
def halfByte (a : Byte) : Byte := wrap8 (a.toNat / 2)
/-- `wrap8(a << 1)`. -/
def doubleByte (a : Byte) : Byte := wrap8 (a.toNat * 2)

/-- The carry of 8xy4: `bool(a + b > 255)`. -/
def carryFlag (a b : Byte) : Byte := boolByte (decide (255 < a.toNat + b.toNat))
/-- The no-borrow flag of `a - b`: `bool(a >= b)`. -/
def noBorrowFlag (a b : Byte) : Byte := boolByte (decide (b.toNat ≤ a.toNat))
/-- The bit a right shift by one puts out: `a & 0x01`. -/
def lowBitFlag (a : Byte) : Byte := a &&& 0x01
/-- The bit a left shift by one puts out: `a >> 7`. -/
def highBitFlag (a : Byte) : Byte := a >>> 7

/-- The two writes of 8xy4, 8xy5, 8xy6 and 8xyE: flag first and result last, or under `flag_last` the other way round
(42_alu.md R191). -/
def State.setFlagThenResult (s : State) (x : RegIdx) (flag result : Byte) : State :=
  match s.params.vfDestOrder with
  | .listed => (s.setV vf flag).setV x result
  | .flagLast => (s.setV x result).setV vf flag

/-- The two writes of 8xy7: result first and flag last under both orders (42_alu.md R191, R201). -/
def State.setResultThenFlag (s : State) (x : RegIdx) (result flag : Byte) : State :=
  match s.params.vfDestOrder with
  | .listed => (s.setV x result).setV vf flag
  | .flagLast => (s.setV x result).setV vf flag

end Sys2Proof.Machine
end

