-- ==== Sys2Proof/Machine/Alu.lean ====
section
/-! DEFINITION. Register loads, the arithmetic-logic unit and the random byte (42_alu.md R192 to R203). Every operand is
read before any write (R190), and every instruction ends in `advance`. -/

namespace Sys2Proof.Machine

/-- `6xnn` LD Vx, nn (R192). -/
def execLdImm (x : RegIdx) (nn : Byte) (s : State) : Result := .next (s.setV x nn).advance

/-- `7xnn` ADD Vx, nn (R193): no flag. -/
def execAddImm (x : RegIdx) (nn : Byte) (s : State) : Result :=
  s.reading [.v x] (.next (s.setV x (sumByte (s.getV x) nn)).advance)

/-- `8xy0` LD Vx, Vy (R194): V[x] is not read. -/
def execLdReg (x y : RegIdx) (s : State) : Result := s.reading [.v y] (.next (s.setV x (s.getV y)).advance)

/-- `8xy1` OR Vx, Vy (R195): VF is not changed. -/
def execOrReg (x y : RegIdx) (s : State) : Result :=
  s.reading [.v x, .v y] (.next (s.setV x (s.getV x ||| s.getV y)).advance)

/-- `8xy2` AND Vx, Vy (R196): VF is not changed. -/
def execAndReg (x y : RegIdx) (s : State) : Result :=
  s.reading [.v x, .v y] (.next (s.setV x (s.getV x &&& s.getV y)).advance)

/-- `8xy3` XOR Vx, Vy (R197): VF is not changed. -/
def execXorReg (x y : RegIdx) (s : State) : Result :=
  s.reading [.v x, .v y] (.next (s.setV x (s.getV x ^^^ s.getV y)).advance)

/-- `8xy4` ADD Vx, Vy (R198). -/
def execAddReg (x y : RegIdx) (s : State) : Result :=
  let a := s.getV x
  let b := s.getV y
  s.reading [.v x, .v y] (.next (s.setFlagThenResult x (carryFlag a b) (sumByte a b)).advance)

/-- `8xy5` SUB Vx, Vy (R199). -/
def execSubReg (x y : RegIdx) (s : State) : Result :=
  let a := s.getV x
  let b := s.getV y
  s.reading [.v x, .v y] (.next (s.setFlagThenResult x (noBorrowFlag a b) (diffByte a b)).advance)

/-- `8xy6` SHR Vx (R200): y is ignored and V[y] is not read. -/
def execShr (x _y : RegIdx) (s : State) : Result :=
  let a := s.getV x
  s.reading [.v x] (.next (s.setFlagThenResult x (lowBitFlag a) (halfByte a)).advance)

/-- `8xy7` SUBN Vx, Vy (R201): the flag uses the value of V[x] before the instruction. -/
def execSubnReg (x y : RegIdx) (s : State) : Result :=
  let a := s.getV x
  let b := s.getV y
  s.reading [.v x, .v y] (.next (s.setResultThenFlag x (diffByte b a) (noBorrowFlag b a)).advance)

/-- `8xyE` SHL Vx (R202): y is ignored and V[y] is not read. -/
def execShl (x _y : RegIdx) (s : State) : Result :=
  let a := s.getV x
  s.reading [.v x] (.next (s.setFlagThenResult x (highBitFlag a) (doubleByte a)).advance)

/-- `Cxnn` RND Vx, nn (R203): the random byte is the free value `Config.randByte` at the count of draws (log entry 14). -/
def execRnd (x : RegIdx) (nn : Byte) (s : State) : Result :=
  .next ((s.setV x (Config.randByte s.draws &&& nn)).countDraw).advance

end Sys2Proof.Machine
end

