-- ==== Sys2Proof/Machine/Operands.lean ====
section
/-! DEFINITION. The operand forms: zero-extended immediates (30_encoding.md R112), the register range V0..Vx (R113), the
display rows of a sprite (44_display.md R244), the decimal digits of a byte (43_index_memory.md R224) and the comparison of
the key state with a register (45_timers_keys.md R260). -/

namespace Sys2Proof.Machine

/-- `zext_16(nnn)`. -/
def addr16 (nnn : BitVec 12) : Word := nnn.setWidth 16

/-- The number of register number `k` of the range V0..Vx. -/
def regAt (k : Nat) : RegIdx := BitVec.ofNat 4 k

/-- The tracked fields V[0] to V[n-1]. -/
def regFields (n : Nat) : List Field := (List.range n).map fun k => Field.v (regAt k)

/-- Display row number `k`, for k below 32. -/
def rowAt (k : Nat) : RowIdx := BitVec.ofNat 5 k

/-- The tracked fields DISP[oy] to DISP[oy + rows - 1]. -/
def rowFields (oy rows : Nat) : List Field := (List.range rows).map fun k => Field.disp (rowAt (oy + k))

/-- The origin column of a sprite: `V[x] mod 64` (44_display.md R244). -/
def originX (b : Byte) : Nat := b.toNat % 64

/-- The origin row of a sprite: `V[y] mod 32`. -/
def originY (b : Byte) : Nat := b.toNat % 32

/-- How many rows of an `n`-row sprite at origin row `oy` are drawn: rows at index 32 and above are not. -/
def drawnRows (n : BitVec 4) (oy : Nat) : Nat := min n.toNat (32 - oy)

/-- The hundreds digit of `bcd(v)` (43_index_memory.md R224). -/
def bcdHundreds (b : Byte) : Byte := wrap8 (b.toNat / 100)
/-- The tens digit of `bcd(v)`. -/
def bcdTens (b : Byte) : Byte := wrap8 (b.toNat / 10 % 10)
/-- The ones digit of `bcd(v)`. -/
def bcdOnes (b : Byte) : Byte := wrap8 (b.toNat % 10)

/-- `keyEq(KEY, v)` under the parameter `KEY_NONE_CODE` (45_timers_keys.md R260). -/
def keyEq (none? : KeyNoneCode) (key : Option (BitVec 4)) (b : Byte) : Bool :=
  match key with
  | some k => decide (k.setWidth 8 = b)
  | none =>
    match none? with
    | .code c => decide (b = c)
    | .unequal => false

end Sys2Proof.Machine
end

