-- ==== Sys2Proof/Machine/Control.lean ====
section
/-! DEFINITION. Control transfer and skips (41_control_flow.md R171 to R178). -/

namespace Sys2Proof.Machine

/-- `00EE` RET (R171): pop the return address into PC. -/
def execRet (s : State) : Result := s.pop fun a t => .next (t.setPc a)

/-- `1nnn` JP nnn (R172). -/
def execJp (nnn : BitVec 12) (s : State) : Result := .next (s.setPc (addr16 nnn))

/-- `2nnn` CALL nnn (R173): push PC + 2, then jump. -/
def execCall (nnn : BitVec 12) (s : State) : Result := s.push (s.pc + 2) fun t => .next (t.setPc (addr16 nnn))

/-- `3xnn` SE Vx, nn (R174). -/
def execSeImm (x : RegIdx) (nn : Byte) (s : State) : Result :=
  s.reading [.v x] (.next (s.skip (decide (s.getV x = nn))))

/-- `4xnn` SNE Vx, nn (R175). -/
def execSneImm (x : RegIdx) (nn : Byte) (s : State) : Result :=
  s.reading [.v x] (.next (s.skip (decide (s.getV x ≠ nn))))

/-- `5xy0` SE Vx, Vy (R176). -/
def execSeReg (x y : RegIdx) (s : State) : Result :=
  s.reading [.v x, .v y] (.next (s.skip (decide (s.getV x = s.getV y))))

/-- `9xy0` SNE Vx, Vy (R177). -/
def execSneReg (x y : RegIdx) (s : State) : Result :=
  s.reading [.v x, .v y] (.next (s.skip (decide (s.getV x ≠ s.getV y))))

/-- `Bnnn` JP V0, nnn under `BNNN_MODE = jump_v0` (R178): `PC <- wrap16(zext_16(nnn) + V[0])`. The decoder gives it under
that mode only (30_encoding.md R132, log entries 9 and 23). -/
def execJpV0 (nnn : BitVec 12) (s : State) : Result :=
  s.reading [.v 0] (.next (s.setPc (wrap16 (nnn.toNat + (s.getV 0).toNat))))

end Sys2Proof.Machine
end

