-- ==== Sys2Proof/Machine/Display.lean ====
section
/-! DEFINITION. The sprite unit (44_display.md R241 to R244). -/

namespace Sys2Proof.Machine

/-- `00E0` CLS (R241). -/
def execCls (s : State) : Result := .next s.clearRows.advance

/-- `place(b, ox)` (R242): the 8-bit pattern at columns ox to ox + 7, with the pixels past column 63 dropped. -/
def place (b : Byte) (ox : Nat) : Row := (b.setWidth 64 <<< 56) >>> ox

/-- One row of a draw (R243, R244): XOR the placed pattern into DISP[r], and set VF if a lit pixel was erased. -/
def State.xorRow (s : State) (r : RowIdx) (p : Row) : State :=
  let drawn := s.setRow r (s.getRow r ^^^ p)
  if s.getRow r &&& p = 0 then drawn else drawn.setV vf 1

/-- The first `rows` rows of the sprite at `base`, top row first, drawn at column `ox` from display row `oy` on. -/
def State.drawRows (s : State) (base ox oy : Nat) : Nat → State
  | 0 => s
  | k + 1 => (s.drawRows base ox oy k).xorRow (rowAt (oy + k)) (place (s.byte (base + k)) ox)

/-- `Dxyn` DRW Vx, Vy, n (R244): the operands are read first, then the bound is checked for the rows that are drawn, then
the display rows are read, and VF is reset only before the first row is drawn. -/
def execDrw (x y : RegIdx) (n : BitVec 4) (s : State) : Result :=
  let ox := originX (s.getV x)
  let oy := originY (s.getV y)
  let rows := drawnRows n oy
  s.reading [.v x, .v y, .i]
    (s.accessing s.i.toNat rows
      (s.reading (rowFields oy rows) (.next ((s.setV vf 0).drawRows s.i.toNat ox oy rows).advance)))

end Sys2Proof.Machine
end

