-- ==== Sys2Proof/Machine/Index.lean ====
section
/-! DEFINITION. The address register and the instructions that move bytes through it (43_index_memory.md R221 to R227). The
k-th byte an instruction touches is at `I + k`, exact on naturals, and I itself is never changed by an access (R220). -/

namespace Sys2Proof.Machine

/-- `Annn` LD I, nnn (R221). -/
def execLdI (nnn : BitVec 12) (s : State) : Result := .next (s.setI (addr16 nnn)).advance

/-- `Fx1E` ADD I, Vx (R222): a sum above 0xFFFF raises `IndexWrap`. -/
def execAddI (x : RegIdx) (s : State) : Result :=
  let sum := s.i.toNat + (s.getV x).toNat
  s.reading [.i, .v x] (if 0xFFFF < sum then s.raise (.indexWrap s.i) else .next (s.setI (wrap16 sum)).advance)

/-- `Fx29` LD F, Vx (R223): V[x] is not masked to a digit. -/
def execLdF (x : RegIdx) (s : State) : Result :=
  s.reading [.v x]
    (.next (s.setI (wrap16 (fontBase + s.params.fontStride.value * (s.getV x).toNat))).advance)

/-- The three writes of Fx33: the decimal digits of `b` at `base`, `base + 1` and `base + 2`. -/
def State.setDigits (s : State) (base : Nat) (b : Byte) : State :=
  ((s.setByte base (bcdHundreds b)).setByte (base + 1) (bcdTens b)).setByte (base + 2) (bcdOnes b)

/-- `Fx33` LD B, Vx (R225). -/
def execLdB (x : RegIdx) (s : State) : Result :=
  s.reading [.v x, .i] (s.accessing s.i.toNat 3 (.next (s.setDigits s.i.toNat (s.getV x)).advance))

/-- `MEM[base + k] <- V[k]` for k below `n`, in rising order. -/
def State.storeRange (s : State) (base : Nat) : Nat → State
  | 0 => s
  | n + 1 => (s.storeRange base n).setByte (base + n) (s.getV (regAt n))

/-- `Fx55` LD [I], Vx (R226): V0 to Vx, x + 1 bytes. The registers are operands and are read before the bound check
(00_scope.md R18, 60_exceptions.md R309, log entry 15). -/
def execStoreRegs (x : RegIdx) (s : State) : Result :=
  s.reading (.i :: regFields (x.toNat + 1))
    (s.accessing s.i.toNat (x.toNat + 1) (.next (s.storeRange s.i.toNat (x.toNat + 1)).advance))

/-- `V[k] <- MEM[base + k]` for k below `n`, in rising order. -/
def State.loadRange (s : State) (base : Nat) : Nat → State
  | 0 => s
  | n + 1 => (s.loadRange base n).setV (regAt n) (s.byte (base + n))

/-- `Fx65` LD Vx, [I] (R227): V0 to Vx, x + 1 bytes. -/
def execLoadRegs (x : RegIdx) (s : State) : Result :=
  s.reading [.i] (s.accessing s.i.toNat (x.toNat + 1) (.next (s.loadRange s.i.toNat (x.toNat + 1)).advance))

end Sys2Proof.Machine
end

