-- ==== Sys2Proof/Machine/KeysTimers.lean ====
section
/-! DEFINITION. The key and timer instructions (45_timers_keys.md R261 to R266). None of them writes KEY. -/

namespace Sys2Proof.Machine

/-- `Ex9E` SKP Vx (R261). -/
def execSkp (x : RegIdx) (s : State) : Result :=
  s.reading [.key, .v x] (.next (s.skip (keyEq s.params.keyNone s.key (s.getV x))))

/-- `ExA1` SKNP Vx (R262). -/
def execSknp (x : RegIdx) (s : State) : Result :=
  s.reading [.key, .v x] (.next (s.skip (!keyEq s.params.keyNone s.key (s.getV x))))

/-- `Fx07` LD Vx, DT (R263). -/
def execLdVxDt (x : RegIdx) (s : State) : Result := s.reading [.dt] (.next (s.setV x s.dt).advance)

/-- `Fx0A` LD Vx, K (R264): with no key pressed the step has no effect, so that the next step executes it again; with a
key it completes, and KEY is not consumed. -/
def execLdVxK (x : RegIdx) (s : State) : Result :=
  s.reading [.key]
    (match s.key with
    | none => .next s
    | some k => .next (s.setV x (k.setWidth 8)).advance)

/-- `Fx15` LD DT, Vx (R265). -/
def execLdDtVx (x : RegIdx) (s : State) : Result := s.reading [.v x] (.next (s.setDt (s.getV x)).advance)

/-- `Fx18` LD ST, Vx (R266). -/
def execLdStVx (x : RegIdx) (s : State) : Result := s.reading [.v x] (.next (s.setSt (s.getV x)).advance)

end Sys2Proof.Machine
end

