-- ==== Sys2Proof/Machine/Step.lean ====
section
/-! DEFINITION. `step`, the transaction that executes one instruction (40_step_cycle.md R156). -/

namespace Sys2Proof.Machine

/-- One step (R156). -/
def step (s : State) : Host.Outcome State Fault Refusal :=
  match s.cycle with
  | .done t => .next t
  | .execute i => exec i s

/-- The state with the instruction of `nbits` bits `w` at PC, where the next step fetches it (log entry 20). The step runs
it when FAULT is None and PC is below END_PC, as after reset. -/
def State.withFetchWord (s : State) (nbits w : Nat) : State := s.placeWord (wrap16 (w % 2 ^ nbits))

end Sys2Proof.Machine
end

