-- ==== Sys2Proof/Machine/Port.lean ====
section
/-! DEFINITION. The host's transactions other than `step` (60_exceptions.md R314): initialisation and program loading
(70_reset_and_hazards.md R350 to R353), timers (R315), keys (R316, R317) and the outputs (R318 to R320). -/

namespace Sys2Proof.Machine

/-- The launch inputs: the values the source gives no field at initialisation (00_scope.md R11, 10_state.md R49). -/
structure Launch where
  mem  : List Host.Cell
  v    : Vector Byte 16
  i    : Word
  dt   : Byte
  st   : Byte
  key  : Option (BitVec 4)
  disp : Vector Row 32
  deriving DecidableEq, Repr

/-- The launch inputs of the named premise CleanLaunch (70_reset_and_hazards.md R356). -/
def cleanLaunch : Launch where
  mem := []
  v := Vector.replicate 16 0
  i := 0
  dt := 0
  st := 0
  key := none
  disp := Vector.replicate 32 0

/-- What initialisation leaves in WRITTEN (10_state.md R51). -/
def writtenAtInit : UnwrittenRead → Written
  | .fault => Written.none
  | .launchValue => Written.all

/-- `init()` (70_reset_and_hazards.md R350) under the given parameters, font and launch inputs. The launch memory is
overwritten with the font. -/
def init (p : Params) (mode : UnwrittenRead) (font : List Byte) (l : Launch) : State where
  params := p
  mem := Mem.writeAll fontBase font l.mem
  v := l.v
  i := l.i
  pc := pcReset
  sp := stackBase
  dt := l.dt
  st := l.st
  key := l.key
  disp := l.disp
  eop := false
  fault := none
  written := writtenAtInit mode
  draws := 0

/-- The result of `load_program` (60_exceptions.md R302, R314). -/
inductive LoadResult where
  | ok
  | romTooLarge
  deriving DecidableEq, Repr

/-- The number of bytes from the program base to the end of memory. -/
def progSpace : Nat := memSize - progBase

/-- The result of `load_program(bytes)` (70_reset_and_hazards.md R352, R353). -/
def loadResult (bytes : List Byte) : LoadResult := if progSpace ≤ bytes.length then .romTooLarge else .ok

/-- The state after `load_program(bytes)` (R352): on failure nothing is copied (R353). The host issues it once, after
`init` and before the first step (R354); Machine/Session.lean refuses any other. -/
def State.loadProgram (s : State) (bytes : List Byte) : State :=
  match loadResult bytes with
  | .romTooLarge => s
  | .ok => { s with mem := Mem.writeAll progBase bytes s.mem }

/-- A timer after one tick: one less, never below 0 (60_exceptions.md R315). -/
def tickedDown (t : Byte) : Byte := if t = 0 then 0 else t - 1

/-- `tick_timers()` (60_exceptions.md R315): a timer that is not in WRITTEN is left as it is. -/
def State.tickTimers (s : State) : State :=
  if s.fault.isSome then s
  else { s with dt := if s.has .dt then tickedDown s.dt else s.dt, st := if s.has .st then tickedDown s.st else s.st }

/-- `set_key_pressed(code)` with code in 0..15 (60_exceptions.md R316). -/
def State.setKeyPressed (s : State) (code : BitVec 4) : State := if s.fault.isSome then s else s.setKey (some code)

/-- `set_key_released()` (60_exceptions.md R317). -/
def State.setKeyReleased (s : State) : State := if s.fault.isSome then s else s.setKey none

/-- `display_rows()` (60_exceptions.md R318); `none` is the observation `Unwritten`. -/
def State.displayRows (s : State) : List (Option Row) :=
  (List.range 32).map fun k => if s.has (.disp (BitVec.ofNat 5 k)) then some (s.getRow (BitVec.ofNat 5 k)) else none

/-- `is_sound_active()` (60_exceptions.md R319); `none` is the observation `Unwritten`. -/
def State.isSoundActive (s : State) : Option Bool := if s.has .st then some (decide (0 < s.st.toNat)) else none

/-- `is_end_of_program()` (60_exceptions.md R320). -/
def State.isEndOfProgram (s : State) : Bool := s.eop

end Sys2Proof.Machine
end

