-- ==== Sys2Proof/Machine/Session.lean ====
section
/-! DEFINITION. A schedule of host transactions (60_exceptions.md R308, R314, R322): every interleaving the host may issue
after `init`, and the two moves the model does not have (70_reset_and_hazards.md R354, 60_exceptions.md R316). -/

namespace Sys2Proof.Machine

/-- A transaction after `init` (60_exceptions.md R314). -/
inductive Transaction where
  | loadProgram (bytes : List Byte)
  | step
  | tickTimers
  | setKeyPressed (code : Nat)
  | setKeyReleased
  | displayRows
  | isSoundActive
  | isEndOfProgram
  deriving DecidableEq, Repr

/-- What a transaction gives the host. -/
inductive Response where
  | nothing
  | loaded (r : LoadResult)
  | stepped (d : Option Diag)
  | rows (rows : List (Option Row))
  | sound (active : Option Bool)
  | ended (eop : Bool)
  deriving DecidableEq, Repr

/-- The block and whether `load_program` is still a move: it is from `init` to the first load or step (R354). The flag is
the model's own and stands outside State (log entry 19). -/
structure Session where
  state    : State
  loadable : Bool
  deriving DecidableEq, Repr

/-- The session right after `init`. -/
def Session.start (s : State) : Session := { state := s, loadable := true }

/-- The session with a new state and the same admission of `load_program`. -/
def Session.at (q : Session) (s : State) : Session := { q with state := s }

/-- One transaction: the session after it and the response, or the refusal of a move the model does not have. -/
def Session.transact (q : Session) : Transaction → Host.Outcome (Session × Response) Fault Refusal
  | .loadProgram bytes =>
    if q.loadable then .next ({ state := q.state.loadProgram bytes, loadable := false }, .loaded (loadResult bytes))
    else .refused .loadNotAdmitted
  | .step =>
    match Sys2Proof.Machine.step q.state with
    | .next s => .next ({ state := s, loadable := false }, .stepped q.state.stepDiag)
    | .fault r => .fault r
    | .refused r => .refused r
  | .tickTimers => .next (q.at q.state.tickTimers, .nothing)
  | .setKeyPressed code =>
    if code < 16 then .next (q.at (q.state.setKeyPressed (BitVec.ofNat 4 code)), .nothing)
    else .refused (.keyCodeAbove15 code)
  | .setKeyReleased => .next (q.at q.state.setKeyReleased, .nothing)
  | .displayRows => .next (q, .rows q.state.displayRows)
  | .isSoundActive => .next (q, .sound q.state.isSoundActive)
  | .isEndOfProgram => .next (q, .ended q.state.isEndOfProgram)

/-- A schedule, stopping at the first refusal. -/
def Session.run : List Transaction → Session → Host.Outcome Session Fault Refusal
  | [], q => .next q
  | t :: ts, q =>
    match q.transact t with
    | .next (q', _) => Session.run ts q'
    | .fault r => .fault r
    | .refused r => .refused r

end Sys2Proof.Machine
end

