-- ==== Sys2Proof/Safety.lean ====
section
/-! DEFINITION. What counts as a safe run and as a legal state, and the terms the claims use: what an instruction may
change, what it reads, and the opcode map. -/

namespace Sys2Proof.Machine

/-! ### Safe runs -/

/-- No fault has been raised. A claim about a program concludes this throughout (60_exceptions.md R312). -/
def State.FaultFree (s : State) : Prop := s.fault = none

/-- The first `k` steps from `s` each answer a state and raise no fault. -/
def SafeFor (k : Nat) (s : State) : Prop := ∀ j, j ≤ k → ∃ t, core.run j s = .next t ∧ t.fault = none

/-- The run from `s` ends: some step sets EOP, and none before it raises a fault (60_exceptions.md R326). -/
def EndsSafely (s : State) : Prop := ∃ k t, core.run k s = .next t ∧ t.eop = true ∧ SafeFor k s

/-- The named launch premise CleanLaunch after a load of `len` bytes (70_reset_and_hazards.md R356). -/
def CleanLaunch (len : Nat) (s : State) : Prop :=
  (∀ x, s.getV x = 0) ∧ s.i = 0 ∧ s.dt = 0 ∧ s.st = 0 ∧ (∀ r, s.getRow r = 0) ∧ s.key = none ∧ (∀ f, s.has f = true) ∧
    ∀ a, ¬(fontBase ≤ a ∧ a < fontBase + 80) → ¬(progBase ≤ a ∧ a < progBase + len) → s.byte a = 0

/-! ### Legal states -/

/-- The invariant of the machine. Memory has its canonical form, the parameters lie in their ranges (00_scope.md R10), SP
is even and between STACK_BASE and STACK_LIMIT (10_state.md R39, 20_memory.md R93), EOP stands only at an ended PC
(40_step_cycle.md R159), and FAULT records the PC and word of the step that raised it, with PC still there
(60_exceptions.md R306, R307). -/
structure State.Inv (s : State) : Prop where
  mem    : Mem.wf s.mem = true
  params : s.params.wellFormed = true
  spEven : s.sp.toNat % 2 = 0
  spLow  : stackBase.toNat ≤ s.sp.toNat
  spHigh : s.sp.toNat ≤ s.params.stackLimit.toNat
  eop    : s.eop = true → s.atEnd = true
  fault  : ∀ f, s.fault = some f → f.pc = s.pc ∧ f.word = s.fetchWord ∧ s.atEnd = false

/-- The invariant of a schedule: while `load_program` is a move, no step has raised a fault (70_reset_and_hazards.md
R354). -/
structure Session.Inv (q : Session) : Prop where
  state    : q.state.Inv
  loadable : q.loadable = true → q.state.fault = none

/-! ### Frames -/

/-- What an instruction may change besides PC. Every field left out is one it must leave alone. -/
structure Touched where
  v     : List RegIdx := []
  i     : Bool := false
  sp    : Bool := false
  dt    : Bool := false
  st    : Bool := false
  rows  : List RowIdx := []
  bytes : List Nat := []
  draws : Bool := false

/-- From `s` to `t` nothing but PC and what `c` names has changed: general registers, I, SP, timers, display rows, each with
its place in WRITTEN, every byte of memory, KEY, EOP, FAULT, the parameters and the count of draws. -/
structure Frame (c : Touched) (s t : State) : Prop where
  v      : ∀ x, x ∉ c.v → t.getV x = s.getV x ∧ t.has (.v x) = s.has (.v x)
  i      : c.i = false → t.i = s.i ∧ t.has .i = s.has .i
  sp     : c.sp = false → t.sp = s.sp
  dt     : c.dt = false → t.dt = s.dt ∧ t.has .dt = s.has .dt
  st     : c.st = false → t.st = s.st ∧ t.has .st = s.has .st
  rows   : ∀ r, r ∉ c.rows → t.getRow r = s.getRow r ∧ t.has (.disp r) = s.has (.disp r)
  bytes  : ∀ a, a ∉ c.bytes → t.byte a = s.byte a
  key    : t.key = s.key ∧ t.has .key = s.has .key
  eop    : t.eop = s.eop
  fault  : t.fault = s.fault
  params : t.params = s.params
  draws  : c.draws = false → t.draws = s.draws

/-- `t` is `s` with the fault `r` recorded, at the PC and word of `s`, and nothing else changed (00_scope.md R17). -/
def FaultsWith (r : Fault) (s t : State) : Prop :=
  t = { s with fault := some { reason := r, pc := s.pc, word := wordOfBytes (s.byte s.pc.toNat) (s.byte (s.pc.toNat + 1)) } }

/-- The two states are equal but for the values of tracked fields that are not in WRITTEN (10_state.md R51). -/
structure AgreeOnWritten (s s' : State) : Prop where
  params  : s'.params = s.params
  bytes   : s'.mem = s.mem
  pc      : s'.pc = s.pc
  sp      : s'.sp = s.sp
  eop     : s'.eop = s.eop
  fault   : s'.fault = s.fault
  draws   : s'.draws = s.draws
  has     : ∀ f, s'.has f = s.has f
  v       : ∀ x, s.has (.v x) = true → s'.getV x = s.getV x
  i       : s.has .i = true → s'.i = s.i
  dt      : s.has .dt = true → s'.dt = s.dt
  st      : s.has .st = true → s'.st = s.st
  key     : s.has .key = true → s'.key = s.key
  rows    : ∀ r, s.has (.disp r) = true → s'.getRow r = s.getRow r

/-! ### What an instruction reads and writes -/

/-- The tracked fields an instruction reads at its start, in the order of its pseudocode (10_state.md R33, R51;
60_exceptions.md R309). The display rows Dxyn reads later are not among them. -/
def readsOf : Instr → List Field
  | .cls | .ret | .jp _ | .call _ | .ldImm _ _ | .rnd _ _ | .ldI _ => []
  | .seImm x _ | .sneImm x _ | .addImm x _ | .shr x _ | .shl x _ => [.v x]
  | .seReg x y | .sneReg x y | .orReg x y | .andReg x y | .xorReg x y => [.v x, .v y]
  | .addReg x y | .subReg x y | .subnReg x y => [.v x, .v y]
  | .ldReg _ y => [.v y]
  | .jpV0 _ => [.v 0]
  | .drw x y _ => [.v x, .v y, .i]
  | .skp x | .sknp x => [.key, .v x]
  | .ldVxDt _ => [.dt]
  | .ldVxK _ => [.key]
  | .ldDtVx x | .ldStVx x | .ldF x => [.v x]
  | .addI x => [.i, .v x]
  | .ldB x => [.v x, .i]
  | .storeRegs x => .i :: (List.range (x.toNat + 1)).map fun k => Field.v (BitVec.ofNat 4 k)
  | .loadRegs _ => [.i]

/-- The general registers an instruction may write, VF as a flag among them (10_state.md R33, R34). -/
def writesV : Instr → List RegIdx
  | .cls | .ret | .jp _ | .call _ | .seImm _ _ | .sneImm _ _ | .seReg _ _ | .sneReg _ _ | .ldI _ | .jpV0 _ => []
  | .skp _ | .sknp _ | .ldDtVx _ | .ldStVx _ | .addI _ | .ldF _ | .ldB _ | .storeRegs _ => []
  | .ldImm x _ | .addImm x _ | .ldReg x _ | .orReg x _ | .andReg x _ | .xorReg x _ | .rnd x _ => [x]
  | .ldVxDt x | .ldVxK x => [x]
  | .addReg x _ | .subReg x _ | .shr x _ | .subnReg x _ | .shl x _ => [x, 15]
  | .drw _ _ _ => [15]
  | .loadRegs x => (List.range (x.toNat + 1)).map fun k => BitVec.ofNat 4 k

/-- The instruction may write I (10_state.md R35). -/
def writesI : Instr → Bool
  | .ldI _ | .addI _ | .ldF _ => true
  | _ => false

/-- The instruction may write SP (10_state.md R39). -/
def writesSp : Instr → Bool
  | .ret | .call _ => true
  | _ => false

/-- The instruction may write memory (20_memory.md R80). -/
def writesMem : Instr → Bool
  | .ret | .call _ | .ldB _ | .storeRegs _ => true
  | _ => false

/-- The instruction may write the display (44_display.md R240). -/
def writesDisp : Instr → Bool
  | .cls | .drw _ _ _ => true
  | _ => false

/-! ### The opcode map (30_encoding.md R122) -/

/-- The mask of an instruction's row. -/
def opcodeMask : Instr → Word
  | .cls | .ret => 0xFFFF
  | .jp _ | .call _ | .seImm _ _ | .sneImm _ _ | .ldImm _ _ | .addImm _ _ | .ldI _ | .jpV0 _ | .rnd _ _ | .drw _ _ _ => 0xF000
  | .seReg _ _ | .sneReg _ _ | .ldReg _ _ | .orReg _ _ | .andReg _ _ | .xorReg _ _ | .addReg _ _ => 0xF00F
  | .subReg _ _ | .shr _ _ | .subnReg _ _ | .shl _ _ => 0xF00F
  | .skp _ | .sknp _ | .ldVxDt _ | .ldVxK _ | .ldDtVx _ | .ldStVx _ | .addI _ | .ldF _ | .ldB _ => 0xF0FF
  | .storeRegs _ | .loadRegs _ => 0xF0FF

/-- The match value of an instruction's row. -/
def opcodeMatch : Instr → Word
  | .cls => 0x00E0
  | .ret => 0x00EE
  | .jp _ => 0x1000
  | .call _ => 0x2000
  | .seImm _ _ => 0x3000
  | .sneImm _ _ => 0x4000
  | .seReg _ _ => 0x5000
  | .ldImm _ _ => 0x6000
  | .addImm _ _ => 0x7000
  | .ldReg _ _ => 0x8000
  | .orReg _ _ => 0x8001
  | .andReg _ _ => 0x8002
  | .xorReg _ _ => 0x8003
  | .addReg _ _ => 0x8004
  | .subReg _ _ => 0x8005
  | .shr _ _ => 0x8006
  | .subnReg _ _ => 0x8007
  | .shl _ _ => 0x800E
  | .sneReg _ _ => 0x9000
  | .ldI _ => 0xA000
  | .jpV0 _ => 0xB000
  | .rnd _ _ => 0xC000
  | .drw _ _ _ => 0xD000
  | .skp _ => 0xE09E
  | .sknp _ => 0xE0A1
  | .ldVxDt _ => 0xF007
  | .ldVxK _ => 0xF00A
  | .ldDtVx _ => 0xF015
  | .ldStVx _ => 0xF018
  | .addI _ => 0xF01E
  | .ldF _ => 0xF029
  | .ldB _ => 0xF033
  | .storeRegs _ => 0xF055
  | .loadRegs _ => 0xF065

end Sys2Proof.Machine
end

