-- ==== Sys2Proof/Certificates/Slice0/Obligations.lean ====
section
/-! DEFINITION. The statements for the provers. Each docstring names the rules of spec/ it formalises, and the log entry
where it rests on a choice. Operand values are read as 8-bit unsigned numbers (42_alu.md R190); `s.has f` says that the
tracked field `f` is in WRITTEN, which a read needs (10_state.md R51, log entries 1 and 22); register 15 is VF. -/

open Sys2Proof
open Sys2Proof.Machine

/-! ### Decoder and encoder -/

/-- The decoder undoes the encoder, for every well-formed instruction (30_encoding.md R122, R123). -/
def Obligations.DecodeUndoesEncode : Prop :=
  ∀ (mode : BnnnMode) (i : Instr), i.wellFormed mode = true → decode mode (encode i) = .instr i

/-- The encoder undoes the decoder, and the decoder gives only well-formed instructions: each word has one meaning
(30_encoding.md R114, R122, R123). -/
def Obligations.EncodeUndoesDecode : Prop :=
  ∀ (mode : BnnnMode) (w : Word) (i : Instr), decode mode w = .instr i → encode i = w ∧ i.wellFormed mode = true

/-- The decoder of R123 is the opcode map of R122: a word that decodes to an instruction matches that instruction's row
(`w & mask = match`), and a word that matches a row decodes to an instruction of that row. -/
def Obligations.DecoderFollowsOpcodeMap : Prop :=
  (∀ (mode : BnnnMode) (w : Word) (i : Instr), decode mode w = .instr i → w &&& opcodeMask i = opcodeMatch i) ∧
  (∀ (mode : BnnnMode) (w : Word) (i : Instr), i.wellFormed mode = true → w &&& opcodeMask i = opcodeMatch i →
    ∃ j, decode mode w = .instr j ∧ opcodeMask j = opcodeMask i ∧ opcodeMatch j = opcodeMatch i)

/-- Words written out from the patterns of R122, one per family, decode to the instructions they stand for. -/
def Obligations.SampleWordsDecodeAsWritten : Prop :=
  decode .refuse 0b0000_0000_1110_1110 = .instr .ret ∧
  decode .refuse 0b0010_0010_0001_0000 = .instr (.call 0x210) ∧
  decode .refuse 0b0111_1010_0000_0011 = .instr (.addImm 0xA 0x03) ∧
  decode .refuse 0b1000_0010_0001_1110 = .instr (.shl 2 1) ∧
  decode .refuse 0b1010_0011_0000_0001 = .instr (.ldI 0x301) ∧
  decode .refuse 0b1101_0001_0010_0101 = .instr (.drw 1 2 5) ∧
  decode .refuse 0b1110_0111_1010_0001 = .instr (.sknp 7) ∧
  decode .refuse 0b1111_1010_0011_0011 = .instr (.ldB 0xA)

/-- Which words are no instruction: the `Unknown` words listed in 30_encoding.md R130, and the `Unspecified` words of R131
and R132 (spec's own choices D15, D16, D31). -/
def Obligations.UnlistedWordsAreSorted : Prop :=
  ∀ (mode : BnnnMode) (w : Word),
    (decode mode w = .unknown ↔
      (w.extractLsb' 12 4 = 0x0#4 ∧ w ≠ 0x00E0 ∧ w ≠ 0x00EE) ∨
      (w.extractLsb' 12 4 = 0x8#4 ∧ w.extractLsb' 0 4 ∈ [0x8#4, 0x9#4, 0xA#4, 0xB#4, 0xC#4, 0xD#4, 0xF#4]) ∨
      (w.extractLsb' 12 4 = 0xE#4 ∧ w.extractLsb' 0 8 ∉ [0x9E#8, 0xA1#8]) ∨
      (w.extractLsb' 12 4 = 0xF#4 ∧
        w.extractLsb' 0 8 ∉ [0x07#8, 0x0A#8, 0x15#8, 0x18#8, 0x1E#8, 0x29#8, 0x33#8, 0x55#8, 0x65#8]) ∨
      (w.extractLsb' 12 4 = 0xB#4 ∧ mode = .unknownNoop)) ∧
    (decode mode w = .unspecified ↔
      ((w.extractLsb' 12 4 = 0x5#4 ∨ w.extractLsb' 12 4 = 0x9#4) ∧ w.extractLsb' 0 4 ≠ 0x0#4) ∨
      (w.extractLsb' 12 4 = 0xB#4 ∧ mode = .refuse))

/-! ### The step -/

/-- A step of a running block executes the instruction that the word at PC decodes to, and adds nothing around it
(40_step_cycle.md R153, R154, R156). -/
def Obligations.StepRunsDecodedInstruction : Prop :=
  ∀ (s : State) (i : Instr), s.fault = none → s.pc.toNat < s.params.endPc.value →
    decode s.params.bnnnMode (s.byte s.pc.toNat ++ s.byte (s.pc.toNat + 1)) = .instr i → step s = exec i s

/-- Once FAULT is set no transaction changes any state (40_step_cycle.md R151, 60_exceptions.md R312; D17). -/
def Obligations.FaultedBlockNeverMoves : Prop :=
  ∀ (s : State) (f : FaultRecord), s.fault = some f →
    step s = .next s ∧ s.tickTimers = s ∧ (∀ code, s.setKeyPressed code = s) ∧ s.setKeyReleased = s

/-- A step that finds PC at or beyond END_PC sets EOP and changes nothing else (40_step_cycle.md R152). END_PC is 0xFFF, or
0xFFE under the alternative of D2 (log entry 5). -/
def Obligations.StepAtEndOnlySetsEop : Prop :=
  ∀ s : State, s.fault = none →
    (match s.params.endPc with | .memTop => 0xFFF ≤ s.pc.toNat | .lastSlot => 0xFFE ≤ s.pc.toNat) →
    step s = .next { s with eop := true }

/-- Executing an `Unknown` word emits the diagnostic with the PC and the word, advances PC by 2, and changes no register,
memory, display or timer (40_step_cycle.md R157). -/
def Obligations.UnknownWordOnlyAdvances : Prop :=
  ∀ s : State, s.fault = none → s.pc.toNat < s.params.endPc.value →
    decode s.params.bnnnMode (s.byte s.pc.toNat ++ s.byte (s.pc.toNat + 1)) = .unknown →
    s.stepDiag = some { pc := s.pc, word := s.byte s.pc.toNat ++ s.byte (s.pc.toNat + 1) } ∧
    ∃ t, step s = .next t ∧ t.pc = s.pc + 2 ∧ Frame {} s t

/-- Executing an `Unspecified` word raises `UnspecifiedOpcode` with the word and changes nothing else (40_step_cycle.md
R158; spec's own choices D15, D16). -/
def Obligations.UnspecifiedWordFaults : Prop :=
  ∀ s : State, s.fault = none → s.pc.toNat < s.params.endPc.value →
    decode s.params.bnnnMode (s.byte s.pc.toNat ++ s.byte (s.pc.toNat + 1)) = .unspecified →
    ∃ t, step s = .next t ∧
      FaultsWith (.unspecifiedOpcode (s.byte s.pc.toNat ++ s.byte (s.pc.toNat + 1))) s t

/-- The machine is total: every instruction in every state, and every step, answers a next state (00_scope.md R17 makes
a fault a state; log entry 12). -/
def Obligations.EveryStepAnswersAState : Prop :=
  (∀ (i : Instr) (s : State), ∃ t, exec i s = .next t) ∧ ∀ s : State, ∃ t, step s = .next t

/-- Initialisation meets the invariant with EOP false and FAULT None (10_state.md R49, 70_reset_and_hazards.md R350): for
every parameter choice in range, both modes of UNWRITTEN_READ, every 80-byte font and every launch whose memory is canonical
(the model's form, log entry 26), the spec's defaults among them; and the machine after reset does (its launch values and
parameters are log entries 1 to 10). -/
def Obligations.ResetMeetsInvariant : Prop :=
  (∀ (p : Params) (mode : UnwrittenRead) (font : List Byte) (l : Launch),
    p.wellFormed = true → font.length = 80 → Mem.wf l.mem = true →
    (init p mode font l).Inv ∧ (init p mode font l).eop = false ∧ (init p mode font l).fault = none) ∧
  State.reset.Inv ∧ State.reset.eop = false ∧ State.reset.fault = none

/-- Every step keeps the invariant: memory stays canonical, the parameters in range, SP even and between STACK_BASE and
STACK_LIMIT, EOP set only at an ended PC, FAULT true to the step that raised it (10_state.md R39; 20_memory.md R93;
40_step_cycle.md R159; 60_exceptions.md R306, R307). -/
def Obligations.StepKeepsInvariant : Prop :=
  ∀ s t : State, s.Inv → step s = .next t → t.Inv

/-- Every schedule of host transactions keeps the invariant (60_exceptions.md R308, R312, R314 to R320, R354). -/
def Obligations.SchedulesKeepInvariant : Prop :=
  ∀ (ts : List Transaction) (q q' : Session), q.Inv → Session.run ts q = .next q' → q'.Inv

/-- Faults are precise: the step that raises one records its reason, PC and word and performs none of its writes
(60_exceptions.md R306, R307; 00_scope.md R17; D17). -/
def Obligations.FaultsArePrecise : Prop :=
  ∀ s t : State, s.fault = none → step s = .next t → t.fault ≠ none → ∃ r, FaultsWith r s t

/-- EOP is set exactly by a step of an unfaulted block that begins at or beyond END_PC, nothing clears it, and in a state
that meets the invariant every step after it has no effect (10_state.md R44, 40_step_cycle.md R159, 60_exceptions.md
R326). -/
def Obligations.EopMarksTheEnd : Prop :=
  (∀ s t : State, step s = .next t →
    (t.eop = true ↔ s.eop = true ∨ (s.fault = none ∧ s.params.endPc.value ≤ s.pc.toNat))) ∧
  ∀ s : State, s.Inv → s.eop = true → step s = .next s

/-! ### What instructions may change, over the whole instruction set -/

/-- No instruction but 00E0 and Dxyn changes the display (44_display.md R240), and none but 2nnn, 00EE, Fx33 and Fx55
changes a byte of memory (20_memory.md R80). -/
def Obligations.DisplayAndMemoryWriters : Prop :=
  ∀ (i : Instr) (s t : State), exec i s = .next t →
    (writesDisp i = false → ∀ r, t.getRow r = s.getRow r ∧ t.has (.disp r) = s.has (.disp r)) ∧
    (writesMem i = false → ∀ a, t.byte a = s.byte a)

/-- An instruction changes no general register but those R33 lists for it: its destinations, and VF where it is a flag
(10_state.md R33, R34). -/
def Obligations.RegisterWritersAreTheListed : Prop :=
  ∀ (i : Instr) (s t : State), exec i s = .next t →
    ∀ x, x ∉ writesV i → t.getV x = s.getV x ∧ t.has (.v x) = s.has (.v x)

/-- Only Annn, Fx1E and Fx29 change I (10_state.md R35), only 2nnn and 00EE change SP (R39), only Fx15 changes DT (R40),
only Fx18 changes ST (R41), only Cxnn draws a random byte (60_exceptions.md R321), no instruction changes KEY (R42), EOP
(R44) or a parameter, and no instruction and no step removes a field from WRITTEN (R51). -/
def Obligations.SpecialRegisterWriters : Prop :=
  (∀ (i : Instr) (s t : State), exec i s = .next t →
    (writesI i = false → t.i = s.i) ∧ (writesSp i = false → t.sp = s.sp) ∧
    ((∀ x, i ≠ .ldDtVx x) → t.dt = s.dt) ∧ ((∀ x, i ≠ .ldStVx x) → t.st = s.st) ∧
    ((∀ x nn, i ≠ .rnd x nn) → t.draws = s.draws) ∧ t.key = s.key ∧ t.eop = s.eop ∧ t.params = s.params ∧
    ∀ f, s.has f = true → t.has f = true) ∧
  ∀ (s t : State) (f : Field), step s = .next t → s.has f = true → t.has f = true

/-- An instruction that reads an operand nothing has written raises `UnwrittenRead` with the first such operand in the
order of its pseudocode, and writes nothing (10_state.md R51, 60_exceptions.md R309; D8; the order is log entry 15). -/
def Obligations.UnwrittenOperandFaults : Prop :=
  ∀ (i : Instr) (s : State) (f : Field), (readsOf i).find? (fun g => !s.has g) = some f →
    ∃ t, exec i s = .next t ∧ FaultsWith (.unwrittenRead f) s t

/-- No instruction reads ST (10_state.md R41): another value in it changes nothing but ST itself, for every instruction but
Fx18, which writes it. -/
def Obligations.SoundTimerIsNeverRead : Prop :=
  ∀ (i : Instr) (s t : State) (b : Byte), exec i s = .next t →
    exec i { s with st := b } = .next (if ∃ x, i = .ldStVx x ∧ s.has (.v x) = true then t else { t with st := b })

/-- A field that nothing has written holds no value a program can see (10_state.md R51; D8): from two states that differ
only in the values of unwritten fields, a step answers two states that again differ only so. -/
def Obligations.UnwrittenValuesAreNeverSeen : Prop :=
  ∀ s s' t : State, AgreeOnWritten s s' → step s = .next t → ∃ t', step s' = .next t' ∧ AgreeOnWritten t t'

/-- Memory in its canonical form is determined by its bytes: two such memories that read alike are equal data. -/
def Obligations.CanonicalMemoryIsItsBytes : Prop :=
  ∀ m n : List Host.Cell, Mem.wf m = true → Mem.wf n = true → (∀ a, Mem.read m a = Mem.read n a) → m = n

/-! ### Register loads and the ALU (42_alu.md) -/

/-- `6xnn` (R192). -/
def Obligations.LdImmLoadsByte : Prop :=
  ∀ (x : RegIdx) (nn : Byte) (s : State),
    ∃ t, exec (.ldImm x nn) s = .next t ∧ t.getV x = nn ∧ t.has (.v x) = true ∧ t.pc = s.pc + 2 ∧ Frame { v := [x] } s t

/-- `7xnn` (R193): wraps at 256 and sets no flag. -/
def Obligations.AddImmWrapsWithoutFlag : Prop :=
  ∀ (x : RegIdx) (nn : Byte) (s : State), s.has (.v x) = true →
    ∃ t, exec (.addImm x nn) s = .next t ∧ (t.getV x).toNat = ((s.getV x).toNat + nn.toNat) % 256 ∧
      t.pc = s.pc + 2 ∧ Frame { v := [x] } s t

/-- `8xy0` (R194): only V[y] need be written. -/
def Obligations.LdRegCopies : Prop :=
  ∀ (x y : RegIdx) (s : State), s.has (.v y) = true →
    ∃ t, exec (.ldReg x y) s = .next t ∧ t.getV x = s.getV y ∧ t.has (.v x) = true ∧ t.pc = s.pc + 2 ∧
      Frame { v := [x] } s t

/-- `8xy1`, `8xy2`, `8xy3` (R195 to R197): bit by bit, VF not changed unless it is the destination (D25). -/
def Obligations.LogicIsBitwise : Prop :=
  ∀ (x y : RegIdx) (s : State), s.has (.v x) = true → s.has (.v y) = true →
    (∃ t, exec (.orReg x y) s = .next t ∧
      (∀ j, (t.getV x).getLsbD j = ((s.getV x).getLsbD j || (s.getV y).getLsbD j)) ∧ t.pc = s.pc + 2 ∧
      Frame { v := [x] } s t) ∧
    (∃ t, exec (.andReg x y) s = .next t ∧
      (∀ j, (t.getV x).getLsbD j = ((s.getV x).getLsbD j && (s.getV y).getLsbD j)) ∧ t.pc = s.pc + 2 ∧
      Frame { v := [x] } s t) ∧
    (∃ t, exec (.xorReg x y) s = .next t ∧
      (∀ j, (t.getV x).getLsbD j = ((s.getV x).getLsbD j ^^ (s.getV y).getLsbD j)) ∧ t.pc = s.pc + 2 ∧
      Frame { v := [x] } s t)

/-- `8xy4` (R198): the sum modulo 256 and the carry. With x = F the write that stays is the one `VF_DEST_ORDER` says (R191;
D14, log entry 10). -/
def Obligations.AddRegSumAndCarry : Prop :=
  ∀ (x y : RegIdx) (s : State), s.has (.v x) = true → s.has (.v y) = true →
    ∃ (t : State) (flag result : Byte), exec (.addReg x y) s = .next t ∧
      flag = (if 255 < (s.getV x).toNat + (s.getV y).toNat then 1 else 0) ∧
      result.toNat = ((s.getV x).toNat + (s.getV y).toNat) % 256 ∧
      (x ≠ 15 → t.getV x = result ∧ t.getV 15 = flag) ∧
      (x = 15 → t.getV 15 = (match s.params.vfDestOrder with | .listed => result | .flagLast => flag)) ∧
      t.has (.v 15) = true ∧ t.pc = s.pc + 2 ∧ Frame { v := [x, 15] } s t

/-- `8xy5` (R199): the difference modulo 256 and the no-borrow flag. With x = F as `VF_DEST_ORDER` says (R191; D14, log
entry 10). -/
def Obligations.SubRegDifferenceAndNoBorrow : Prop :=
  ∀ (x y : RegIdx) (s : State), s.has (.v x) = true → s.has (.v y) = true →
    ∃ (t : State) (flag result : Byte), exec (.subReg x y) s = .next t ∧
      flag = (if (s.getV y).toNat ≤ (s.getV x).toNat then 1 else 0) ∧
      result.toNat = ((s.getV x).toNat + 256 - (s.getV y).toNat) % 256 ∧
      (x ≠ 15 → t.getV x = result ∧ t.getV 15 = flag) ∧
      (x = 15 → t.getV 15 = (match s.params.vfDestOrder with | .listed => result | .flagLast => flag)) ∧
      t.has (.v 15) = true ∧ t.pc = s.pc + 2 ∧ Frame { v := [x, 15] } s t

/-- `8xy7` (R201): the reversed difference, and the flag from the value of V[x] before the instruction. With x = F, VF ends
with the flag under both orders (R191). -/
def Obligations.SubnRegDifferenceAndNoBorrow : Prop :=
  ∀ (x y : RegIdx) (s : State), s.has (.v x) = true → s.has (.v y) = true →
    ∃ t, exec (.subnReg x y) s = .next t ∧
      t.getV 15 = (if (s.getV x).toNat ≤ (s.getV y).toNat then 1 else 0) ∧
      (x ≠ 15 → (t.getV x).toNat = ((s.getV y).toNat + 256 - (s.getV x).toNat) % 256) ∧
      t.has (.v 15) = true ∧ t.pc = s.pc + 2 ∧ Frame { v := [x, 15] } s t

/-- `8xy6` and `8xyE` (R200, R202): V[x] shifted by one place and the bit shifted out in VF; V[y] need not be written, for
it is not read. With x = F as `VF_DEST_ORDER` says (R191; D14, log entry 10). -/
def Obligations.ShiftsByOnePlace : Prop :=
  ∀ (x y : RegIdx) (s : State), s.has (.v x) = true →
    (∃ (t : State) (flag result : Byte), exec (.shr x y) s = .next t ∧
      flag.toNat = (s.getV x).toNat % 2 ∧ result.toNat = (s.getV x).toNat / 2 ∧
      (x ≠ 15 → t.getV x = result ∧ t.getV 15 = flag) ∧
      (x = 15 → t.getV 15 = (match s.params.vfDestOrder with | .listed => result | .flagLast => flag)) ∧
      t.has (.v 15) = true ∧ t.pc = s.pc + 2 ∧ Frame { v := [x, 15] } s t) ∧
    (∃ (t : State) (flag result : Byte), exec (.shl x y) s = .next t ∧
      flag.toNat = (s.getV x).toNat / 128 ∧ result.toNat = (s.getV x).toNat * 2 % 256 ∧
      (x ≠ 15 → t.getV x = result ∧ t.getV 15 = flag) ∧
      (x = 15 → t.getV 15 = (match s.params.vfDestOrder with | .listed => result | .flagLast => flag)) ∧
      t.has (.v 15) = true ∧ t.pc = s.pc + 2 ∧ Frame { v := [x, 15] } s t)

/-- `Cxnn` (R203): V[x] holds a drawn byte masked by nn, whatever byte the free value is; bits of V[x] outside nn are 0, and
one draw is taken (60_exceptions.md R321; D23, log entry 14). -/
def Obligations.RndMasksADrawnByte : Prop :=
  ∀ (x : RegIdx) (nn : Byte) (s : State),
    ∃ t, exec (.rnd x nn) s = .next t ∧ t.getV x = Config.randByte s.draws &&& nn ∧
      (∀ j, nn.getLsbD j = false → (t.getV x).getLsbD j = false) ∧ t.has (.v x) = true ∧ t.draws = s.draws + 1 ∧
      t.pc = s.pc + 2 ∧ Frame { v := [x], draws := true } s t

/-! ### Control transfer (41_control_flow.md) -/

/-- `00EE` (R171, 20_memory.md R100) on a stack with a frame: PC is the big-endian word of the frame, SP goes down by 2, and
the frame's two bytes become 0. -/
def Obligations.RetPopsIntoPc : Prop :=
  ∀ s : State, 0x054 ≤ s.sp.toNat → s.sp.toNat ≤ 0x1000 →
    ∃ t, exec .ret s = .next t ∧ t.pc = s.byte (s.sp.toNat - 2) ++ s.byte (s.sp.toNat - 1) ∧ t.sp = s.sp - 2 ∧
      t.byte (s.sp.toNat - 2) = 0 ∧ t.byte (s.sp.toNat - 1) = 0 ∧
      Frame { sp := true, bytes := [s.sp.toNat - 2, s.sp.toNat - 1] } s t

/-- `1nnn` (R172). -/
def Obligations.JpSetsPc : Prop :=
  ∀ (nnn : BitVec 12) (s : State), ∃ t, exec (.jp nnn) s = .next t ∧ t.pc.toNat = nnn.toNat ∧ Frame {} s t

/-- `2nnn` (R173, 20_memory.md R86, R99) with room below STACK_LIMIT: the big-endian PC + 2 goes to SP and SP + 1, SP goes
up by 2, and PC is nnn. -/
def Obligations.CallPushesReturnAddress : Prop :=
  ∀ (nnn : BitVec 12) (s : State), s.sp.toNat + 2 ≤ s.params.stackLimit.toNat → s.sp.toNat + 2 ≤ 0x1000 →
    ∃ t, exec (.call nnn) s = .next t ∧ t.pc.toNat = nnn.toNat ∧ t.sp = s.sp + 2 ∧
      t.byte s.sp.toNat ++ t.byte (s.sp.toNat + 1) = s.pc + 2 ∧
      Frame { sp := true, bytes := [s.sp.toNat, s.sp.toNat + 1] } s t

/-- The stack faults: 2nnn raises `StackOverflow` when SP + 2 is above STACK_LIMIT, 00EE raises `StackUnderflow` when SP is
below STACK_BASE + 2, and neither writes anything (20_memory.md R99, R100; D6, D7, log entry 7). -/
def Obligations.StackFaultsWriteNothing : Prop :=
  (∀ (nnn : BitVec 12) (s : State), s.params.stackLimit.toNat < s.sp.toNat + 2 →
    ∃ t, exec (.call nnn) s = .next t ∧ FaultsWith (.stackOverflow s.sp) s t) ∧
  (∀ s : State, s.sp.toNat < 0x054 → ∃ t, exec .ret s = .next t ∧ FaultsWith (.stackUnderflow s.sp) s t)

/-- A return right after a call comes back: PC is the address after the call, SP is as before, and every byte but the
frame's two is as before (41_control_flow.md R171, R173). -/
def Obligations.ReturnUndoesCall : Prop :=
  ∀ (nnn : BitVec 12) (s : State), 0x052 ≤ s.sp.toNat → s.sp.toNat + 2 ≤ s.params.stackLimit.toNat →
    s.sp.toNat + 2 ≤ 0x1000 →
    ∃ t u, exec (.call nnn) s = .next t ∧ exec .ret t = .next u ∧ u.pc = s.pc + 2 ∧ u.sp = s.sp ∧
      Frame { bytes := [s.sp.toNat, s.sp.toNat + 1] } s u

/-- `3xnn` and `4xnn` (R174, R175; the skip is 40_step_cycle.md R155). -/
def Obligations.SkipsOnImmediate : Prop :=
  ∀ (x : RegIdx) (nn : Byte) (s : State), s.has (.v x) = true →
    (∃ t, exec (.seImm x nn) s = .next t ∧ t.pc = (if s.getV x = nn then s.pc + 4 else s.pc + 2) ∧ Frame {} s t) ∧
    (∃ t, exec (.sneImm x nn) s = .next t ∧ t.pc = (if s.getV x = nn then s.pc + 2 else s.pc + 4) ∧ Frame {} s t)

/-- `5xy0` and `9xy0` (R176, R177). -/
def Obligations.SkipsOnRegister : Prop :=
  ∀ (x y : RegIdx) (s : State), s.has (.v x) = true → s.has (.v y) = true →
    (∃ t, exec (.seReg x y) s = .next t ∧ t.pc = (if s.getV x = s.getV y then s.pc + 4 else s.pc + 2) ∧ Frame {} s t) ∧
    (∃ t, exec (.sneReg x y) s = .next t ∧ t.pc = (if s.getV x = s.getV y then s.pc + 2 else s.pc + 4) ∧ Frame {} s t)

/-- `Bnnn` as the instruction it is under `BNNN_MODE = jump_v0` (R178; D16, DESIGN CHOICE of log entry 9). -/
def Obligations.JpV0AddsV0 : Prop :=
  ∀ (nnn : BitVec 12) (s : State), s.has (.v 0) = true →
    ∃ t, exec (.jpV0 nnn) s = .next t ∧ t.pc.toNat = (nnn.toNat + (s.getV 0).toNat) % 65536 ∧ Frame {} s t

/-! ### Address register and memory (43_index_memory.md) -/

/-- `Annn` (R221). -/
def Obligations.LdISetsAddress : Prop :=
  ∀ (nnn : BitVec 12) (s : State),
    ∃ t, exec (.ldI nnn) s = .next t ∧ t.i.toNat = nnn.toNat ∧ t.has .i = true ∧ t.pc = s.pc + 2 ∧ Frame { i := true } s t

/-- `Fx1E` (R222): the exact sum where it fits 16 bits, with no flag, else the fault `IndexWrap` and no write (D5). -/
def Obligations.AddIAddsOrFaults : Prop :=
  ∀ (x : RegIdx) (s : State), s.has .i = true → s.has (.v x) = true →
    (s.i.toNat + (s.getV x).toNat ≤ 0xFFFF →
      ∃ t, exec (.addI x) s = .next t ∧ t.i.toNat = s.i.toNat + (s.getV x).toNat ∧ t.pc = s.pc + 2 ∧
        Frame { i := true } s t) ∧
    (0xFFFF < s.i.toNat + (s.getV x).toNat → ∃ t, exec (.addI x) s = .next t ∧ FaultsWith (.indexWrap s.i) s t)

/-- `Fx29` (R223): I is 0x050 plus FONT_STRIDE times V[x], unmasked; the stride is 5, or 1 under the alternative of D3 (log
entry 6). -/
def Obligations.LdFPointsAtGlyph : Prop :=
  ∀ (x : RegIdx) (s : State), s.has (.v x) = true →
    ∃ t, exec (.ldF x) s = .next t ∧
      t.i.toNat = 0x050 + (match s.params.fontStride with | .five => 5 | .one => 1) * (s.getV x).toNat ∧
      t.has .i = true ∧ t.pc = s.pc + 2 ∧ Frame { i := true } s t

/-- `Fx33` (R224, R225) inside memory: the hundreds, tens and ones digits of V[x] at I, I + 1 and I + 2. -/
def Obligations.LdBStoresDigits : Prop :=
  ∀ (x : RegIdx) (s : State), s.has (.v x) = true → s.has .i = true → s.i.toNat + 2 ≤ 0xFFF →
    ∃ t, exec (.ldB x) s = .next t ∧ (t.byte s.i.toNat).toNat = (s.getV x).toNat / 100 ∧
      (t.byte (s.i.toNat + 1)).toNat = (s.getV x).toNat / 10 % 10 ∧
      (t.byte (s.i.toNat + 2)).toNat = (s.getV x).toNat % 10 ∧ t.pc = s.pc + 2 ∧
      Frame { bytes := [s.i.toNat, s.i.toNat + 1, s.i.toNat + 2] } s t

/-- `Fx55` (R226) inside memory: V[k] at I + k for every k up to x; I is not changed (D24). -/
def Obligations.StoreRegsCopiesOut : Prop :=
  ∀ (x : RegIdx) (s : State), s.has .i = true → (∀ k : RegIdx, k.toNat ≤ x.toNat → s.has (.v k) = true) →
    s.i.toNat + x.toNat ≤ 0xFFF →
    ∃ t, exec (.storeRegs x) s = .next t ∧
      (∀ k : RegIdx, k.toNat ≤ x.toNat → t.byte (s.i.toNat + k.toNat) = s.getV k) ∧ t.pc = s.pc + 2 ∧
      Frame { bytes := (List.range (x.toNat + 1)).map fun k => s.i.toNat + k } s t

/-- `Fx65` (R227) inside memory: the byte at I + k in V[k] for every k up to x; I is not changed (D24), and the registers
need not be written before. -/
def Obligations.LoadRegsCopiesIn : Prop :=
  ∀ (x : RegIdx) (s : State), s.has .i = true → s.i.toNat + x.toNat ≤ 0xFFF →
    ∃ t, exec (.loadRegs x) s = .next t ∧
      (∀ k : RegIdx, k.toNat ≤ x.toNat → t.getV k = s.byte (s.i.toNat + k.toNat) ∧ t.has (.v k) = true) ∧
      t.pc = s.pc + 2 ∧ Frame { v := (List.range (x.toNat + 1)).map fun k => BitVec.ofNat 4 k } s t

/-- Fx55 and then Fx65 with the same I and x gives every register back (43_index_memory.md R227, 95_test_vectors.md S3). -/
def Obligations.StoreThenLoadRestoresRegisters : Prop :=
  ∀ (x : RegIdx) (s : State), s.has .i = true → (∀ k : RegIdx, k.toNat ≤ x.toNat → s.has (.v k) = true) →
    s.i.toNat + x.toNat ≤ 0xFFF →
    ∃ t u, exec (.storeRegs x) s = .next t ∧ exec (.loadRegs x) t = .next u ∧ (∀ k, u.getV k = s.getV k) ∧ u.i = s.i ∧
      ∀ a, u.byte a = t.byte a

/-- An access through I that passes 0xFFF raises `MemOutOfRange` with the first address above it and writes nothing: Fx33,
Fx55, Fx65, and Dxyn for the rows it would draw (20_memory.md R84; 44_display.md R244; D4). -/
def Obligations.AccessBeyondMemoryFaults : Prop :=
  (∀ (x : RegIdx) (s : State), s.has (.v x) = true → s.has .i = true → 0xFFF < s.i.toNat + 2 →
    ∃ t, exec (.ldB x) s = .next t ∧ FaultsWith (.memOutOfRange (max s.i.toNat 0x1000)) s t) ∧
  (∀ (x : RegIdx) (s : State), s.has .i = true → (∀ k : RegIdx, k.toNat ≤ x.toNat → s.has (.v k) = true) →
    0xFFF < s.i.toNat + x.toNat →
    ∃ t, exec (.storeRegs x) s = .next t ∧ FaultsWith (.memOutOfRange (max s.i.toNat 0x1000)) s t) ∧
  (∀ (x : RegIdx) (s : State), s.has .i = true → 0xFFF < s.i.toNat + x.toNat →
    ∃ t, exec (.loadRegs x) s = .next t ∧ FaultsWith (.memOutOfRange (max s.i.toNat 0x1000)) s t) ∧
  (∀ (x y : RegIdx) (n : BitVec 4) (s : State), s.has (.v x) = true → s.has (.v y) = true → s.has .i = true →
    0 < min n.toNat (32 - (s.getV y).toNat % 32) →
    0x1000 < s.i.toNat + min n.toNat (32 - (s.getV y).toNat % 32) →
    ∃ t, exec (.drw x y n) s = .next t ∧ FaultsWith (.memOutOfRange (max s.i.toNat 0x1000)) s t)

/-! ### Display (44_display.md) -/

/-- `00E0` (R241). -/
def Obligations.ClsClearsEveryRow : Prop :=
  ∀ s : State, ∃ t, exec .cls s = .next t ∧ (∀ r, t.getRow r = 0 ∧ t.has (.disp r) = true) ∧ t.pc = s.pc + 2 ∧
    Frame { rows := (List.range 32).map fun k => BitVec.ofNat 5 k } s t

/-- The placed pattern (R242, with the pixel columns of 10_state.md R45): the pixel at column c is bit ox + 7 - c of the byte
for c from ox to ox + 7, and dark elsewhere; pixels past column 63 are dropped. -/
def Obligations.PlaceShiftsAndClips : Prop :=
  ∀ (b : Byte) (ox c : Nat), ox < 64 → c < 64 →
    (place b ox).getLsbD (63 - c) = (decide (ox ≤ c ∧ c ≤ ox + 7) && b.getLsbD (ox + 7 - c))

/-- `Dxyn` (R243, R244) where every drawn byte is inside memory, or no row is drawn (then I may be anything): each drawn row
is the old row XOR the placed byte, rows from 32 on are not drawn, VF is 1 exactly when a lit pixel was erased, and the
operands are those before VF was reset (D12, D13). -/
def Obligations.DrwXorsAndReportsCollision : Prop :=
  ∀ (x y : RegIdx) (n : BitVec 4) (s : State) (ox oy rows : Nat),
    ox = (s.getV x).toNat % 64 → oy = (s.getV y).toNat % 32 → rows = min n.toNat (32 - oy) →
    s.has (.v x) = true → s.has (.v y) = true → s.has .i = true → (rows = 0 ∨ s.i.toNat + rows ≤ 0x1000) →
    (∀ k, k < rows → s.has (.disp (BitVec.ofNat 5 (oy + k))) = true) →
    ∃ t, exec (.drw x y n) s = .next t ∧
      (∀ k, k < rows → t.getRow (BitVec.ofNat 5 (oy + k)) =
        s.getRow (BitVec.ofNat 5 (oy + k)) ^^^ place (s.byte (s.i.toNat + k)) ox) ∧
      (t.getV 15 = 1 ∨ t.getV 15 = 0) ∧
      (t.getV 15 = 1 ↔
        ∃ k, k < rows ∧ s.getRow (BitVec.ofNat 5 (oy + k)) &&& place (s.byte (s.i.toNat + k)) ox ≠ 0) ∧
      t.has (.v 15) = true ∧ t.pc = s.pc + 2 ∧
      Frame { v := [15], rows := (List.range rows).map fun k => BitVec.ofNat 5 (oy + k) } s t

/-- Drawing the same sprite twice at the same place restores every display row (R244, 95_test_vectors.md S4), a sprite of no
rows at any I among them. VF names neither coordinate, for the first draw changes it. -/
def Obligations.DrawTwiceRestoresDisplay : Prop :=
  ∀ (x y : RegIdx) (n : BitVec 4) (s : State), x ≠ 15 → y ≠ 15 →
    s.has (.v x) = true → s.has (.v y) = true → s.has .i = true → (∀ r, s.has (.disp r) = true) →
    (min n.toNat (32 - (s.getV y).toNat % 32) = 0 ∨
      s.i.toNat + min n.toNat (32 - (s.getV y).toNat % 32) ≤ 0x1000) →
    ∃ t u, exec (.drw x y n) s = .next t ∧ exec (.drw x y n) t = .next u ∧ ∀ r, u.getRow r = s.getRow r

/-- Dxyn raises `UnwrittenRead` with the first drawn display row that nothing has written, after the bound check, and
writes nothing (10_state.md R51, 60_exceptions.md R309; D8, D28). -/
def Obligations.UnwrittenRowFaults : Prop :=
  ∀ (x y : RegIdx) (n : BitVec 4) (s : State) (oy rows k : Nat),
    oy = (s.getV y).toNat % 32 → rows = min n.toNat (32 - oy) →
    s.has (.v x) = true → s.has (.v y) = true → s.has .i = true → s.i.toNat + rows ≤ 0x1000 → k < rows →
    (∀ j, j < k → s.has (.disp (BitVec.ofNat 5 (oy + j))) = true) →
    s.has (.disp (BitVec.ofNat 5 (oy + k))) = false →
    ∃ t, exec (.drw x y n) s = .next t ∧ FaultsWith (.unwrittenRead (.disp (BitVec.ofNat 5 (oy + k)))) s t

/-! ### Keys and timers (45_timers_keys.md) -/

/-- `Ex9E` and `ExA1` (R260 to R262): a pressed key equals the register that holds its code; no key equals the register that
holds KEY_NONE_CODE (D10, log entry 8). -/
def Obligations.SkipsOnKey : Prop :=
  ∀ (x : RegIdx) (s : State) (equal : Bool), s.has .key = true → s.has (.v x) = true →
    (equal = true ↔ (match s.key with
      | some k => k.toNat = (s.getV x).toNat
      | none => s.params.keyNone = .code (s.getV x))) →
    (∃ t, exec (.skp x) s = .next t ∧ t.pc = (if equal then s.pc + 4 else s.pc + 2) ∧ Frame {} s t) ∧
    (∃ t, exec (.sknp x) s = .next t ∧ t.pc = (if equal then s.pc + 2 else s.pc + 4) ∧ Frame {} s t)

/-- `Fx0A` (R264): with a key pressed V[x] receives its code, PC advances and KEY is kept (D11); with none the step has no
effect at all. -/
def Obligations.WaitForKeyReexecutes : Prop :=
  ∀ (x : RegIdx) (s : State), s.has .key = true →
    (∀ k, s.key = some k →
      ∃ t, exec (.ldVxK x) s = .next t ∧ (t.getV x).toNat = k.toNat ∧ t.has (.v x) = true ∧ t.pc = s.pc + 2 ∧
        Frame { v := [x] } s t) ∧
    (s.key = none → exec (.ldVxK x) s = .next s)

/-- `Fx07`, `Fx15`, `Fx18` (R263, R265, R266). -/
def Obligations.TimersAreCopied : Prop :=
  ∀ (x : RegIdx) (s : State),
    (s.has .dt = true → ∃ t, exec (.ldVxDt x) s = .next t ∧ t.getV x = s.dt ∧ t.has (.v x) = true ∧ t.pc = s.pc + 2 ∧
      Frame { v := [x] } s t) ∧
    (s.has (.v x) = true → ∃ t, exec (.ldDtVx x) s = .next t ∧ t.dt = s.getV x ∧ t.has .dt = true ∧ t.pc = s.pc + 2 ∧
      Frame { dt := true } s t) ∧
    (s.has (.v x) = true → ∃ t, exec (.ldStVx x) s = .next t ∧ t.st = s.getV x ∧ t.has .st = true ∧ t.pc = s.pc + 2 ∧
      Frame { st := true } s t)

/-! ### The host's transactions (60_exceptions.md, 70_reset_and_hazards.md) -/

/-- The host's inputs on an unfaulted block: `tick_timers` takes 1 from each written timer that is not 0 (60_exceptions.md
R315), `set_key_pressed` and `set_key_released` set KEY and mark it written (R316, R317), and nothing else changes. -/
def Obligations.HostInputsChangeTheirFields : Prop :=
  ∀ s : State, s.fault = none →
    (s.tickTimers = { s with dt := s.tickTimers.dt, st := s.tickTimers.st } ∧
      s.tickTimers.dt.toNat = (if s.has .dt then s.dt.toNat - 1 else s.dt.toNat) ∧
      s.tickTimers.st.toNat = (if s.has .st then s.st.toNat - 1 else s.st.toNat)) ∧
    (∀ code, s.setKeyPressed code = { s with key := some code, written := { s.written with key := true } }) ∧
    s.setKeyReleased = { s with key := none, written := { s.written with key := true } }

/-- The host's outputs give each written row, whether ST is above 0, and EOP, with `Unwritten` for a field nothing has
written, and change nothing (60_exceptions.md R318 to R320). Every other transaction is admitted with its own effect and
response (R314, R322): a load while it is a move, a step with the `diag` event of R303 (log entry 17), a tick, a key code
up to 15, a release. The two moves the model does not have are refused, and `load_program` is a move only before the first
step and the first load (70_reset_and_hazards.md R354, 60_exceptions.md R316; log entry 19). -/
def Obligations.OutputsAndRefusedMoves : Prop :=
  (∀ (q : Session) (r : RowIdx),
    q.state.displayRows.length = 32 ∧
    q.state.displayRows[r.toNat]? = some (if q.state.has (.disp r) then some (q.state.getRow r) else none) ∧
    q.state.isSoundActive = (if q.state.has .st then some (decide (q.state.st ≠ 0)) else none) ∧
    q.transact .displayRows = .next (q, .rows q.state.displayRows) ∧
    q.transact .isSoundActive = .next (q, .sound q.state.isSoundActive) ∧
    q.transact .isEndOfProgram = .next (q, .ended q.state.eop)) ∧
  (∀ (q : Session) (bytes : List Byte), q.loadable = true →
    q.transact (.loadProgram bytes) =
      .next ({ state := q.state.loadProgram bytes, loadable := false }, .loaded (loadResult bytes))) ∧
  (∀ (q : Session) (s : State), step q.state = .next s →
    q.transact .step = .next ({ state := s, loadable := false }, .stepped q.state.stepDiag)) ∧
  (∀ q : Session,
    q.transact .tickTimers = .next ({ q with state := q.state.tickTimers }, .nothing) ∧
    q.transact .setKeyReleased = .next ({ q with state := q.state.setKeyReleased }, .nothing)) ∧
  (∀ (q : Session) (code : BitVec 4),
    q.transact (.setKeyPressed code.toNat) = .next ({ q with state := q.state.setKeyPressed code }, .nothing)) ∧
  (∀ (q : Session) (bytes : List Byte), q.loadable = false →
    q.transact (.loadProgram bytes) = .refused .loadNotAdmitted) ∧
  (∀ (q : Session) (code : Nat), 15 < code → q.transact (.setKeyPressed code) = .refused (.keyCodeAbove15 code)) ∧
  (∀ (q q' : Session) (t : Transaction) (a : Response), q.transact t = .next (q', a) →
    (q'.loadable = true ↔ q.loadable = true ∧ t ≠ .step ∧ ∀ bytes, t ≠ .loadProgram bytes))

/-- `load_program` (70_reset_and_hazards.md R352, R353): a ROM of at most 3583 bytes is copied to 0x200 onward and nothing
else changes; a longer one gives RomTooLarge and changes nothing. -/
def Obligations.LoadProgramCopiesVerbatim : Prop :=
  ∀ (s : State) (bytes : List Byte),
    (bytes.length ≤ 3583 → loadResult bytes = .ok ∧
      s.loadProgram bytes = { s with mem := (s.loadProgram bytes).mem } ∧
      (∀ k, k < bytes.length → some ((s.loadProgram bytes).byte (0x200 + k)) = bytes[k]?) ∧
      ∀ a, a < 0x200 ∨ 0x200 + bytes.length ≤ a → (s.loadProgram bytes).byte a = s.byte a) ∧
    (3584 ≤ bytes.length → loadResult bytes = .romTooLarge ∧ s.loadProgram bytes = s)

/-- `init` (70_reset_and_hazards.md R350, 10_state.md R49) for every parameter choice, font and launch value; and the machine
after reset is `init` with the launch values of CleanLaunch (R356), which is the model's choice (DESIGN CHOICE, log entries
1 to 4 and 9). -/
def Obligations.InitLeavesLaunchState : Prop :=
  (∀ (p : Params) (mode : UnwrittenRead) (font : List Byte) (l : Launch) (s : State),
    font.length = 80 → s = init p mode font l →
    s.pc = 0x200 ∧ s.sp = 0x052 ∧ s.eop = false ∧ s.fault = none ∧ s.params = p ∧
    (∀ k, k < 80 → some (s.byte (0x050 + k)) = font[k]?) ∧
    (∀ a, a < 0x050 ∨ 0x0A0 ≤ a → s.byte a = Mem.read l.mem a) ∧
    s.v = l.v ∧ s.i = l.i ∧ s.dt = l.dt ∧ s.st = l.st ∧ s.key = l.key ∧ s.disp = l.disp ∧
    ∀ f, s.has f = decide (mode = .launchValue)) ∧
  init bootParams bootUnwrittenRead fontTable cleanLaunch = State.reset ∧ CleanLaunch 0 State.reset
end

