-- ==== Sys2Proof/Laws/Encoding.lean ====
section
/-! SUPPORT. What the decoder's fields read from an encoded word, one lemma per field and format, and the bytes of a word. -/

namespace Sys2Proof

/-- The high field of an append, as the decoder reads it. -/
theorem extract_high {h l : Nat} (a : BitVec h) (b : BitVec l) :
    @BitVec.extractLsb' (h + l) l h (a ++ b) = a := by
  ext i hi; simp [BitVec.getLsbD_append, hi]

/-- The low field of an append. -/
theorem extract_low {h l : Nat} (a : BitVec h) (b : BitVec l) :
    @BitVec.extractLsb' (h + l) 0 l (a ++ b) = b := by
  ext i hi; simp [BitVec.getLsbD_append, hi]

/-- A field that lies in the high part of an append is that part's field. -/
theorem extract_in_high {h l : Nat} (a : BitVec h) (b : BitVec l) (k n : Nat) :
    @BitVec.extractLsb' (h + l) (l + k) n (a ++ b) = a.extractLsb' k n := by
  ext i hi
  have h1 : ¬l + k + i < l := by omega
  have h2 : l + k + i - l = k + i := by omega
  simp [BitVec.getLsbD_append, h1, h2]

/-- A field that lies in the low part of an append is that part's field. -/
theorem extract_in_low {h l : Nat} (a : BitVec h) (b : BitVec l) {k n : Nat} (hk : k + n ≤ l) :
    @BitVec.extractLsb' (h + l) k n (a ++ b) = b.extractLsb' k n := by
  ext i hi
  have h1 : k + i < l := by omega
  simp [BitVec.getLsbD_append, h1]

@[simp] theorem nibble12_encodeAddr (n1 : BitVec 4) (nnn : BitVec 12) : nibble (encodeAddr n1 nnn) 12 = n1 :=
  extract_high n1 nnn
@[simp] theorem immAddr_encodeAddr (n1 : BitVec 4) (nnn : BitVec 12) : immAddr (encodeAddr n1 nnn) = nnn :=
  extract_low n1 nnn
@[simp] theorem nibble12_encodeByte (n1 x : BitVec 4) (nn : Byte) : nibble (encodeByte n1 x nn) 12 = n1 :=
  (extract_in_high (n1 ++ x) nn 4 4).trans (extract_high n1 x)
@[simp] theorem nibble8_encodeByte (n1 x : BitVec 4) (nn : Byte) : nibble (encodeByte n1 x nn) 8 = x :=
  (extract_in_high (n1 ++ x) nn 0 4).trans (extract_low n1 x)
@[simp] theorem immByte_encodeByte (n1 x : BitVec 4) (nn : Byte) : immByte (encodeByte n1 x nn) = nn :=
  extract_low (n1 ++ x) nn
@[simp] theorem nibble12_encodeNibbles (n1 x y n : BitVec 4) : nibble (encodeNibbles n1 x y n) 12 = n1 :=
  (extract_in_high (n1 ++ x) (y ++ n) 4 4).trans (extract_high n1 x)
@[simp] theorem nibble8_encodeNibbles (n1 x y n : BitVec 4) : nibble (encodeNibbles n1 x y n) 8 = x :=
  (extract_in_high (n1 ++ x) (y ++ n) 0 4).trans (extract_low n1 x)
@[simp] theorem nibble4_encodeNibbles (n1 x y n : BitVec 4) : nibble (encodeNibbles n1 x y n) 4 = y :=
  (extract_in_low (n1 ++ x) (y ++ n) (k := 4) (n := 4) (by decide)).trans (extract_high y n)
@[simp] theorem nibble0_encodeNibbles (n1 x y n : BitVec 4) : nibble (encodeNibbles n1 x y n) 0 = n :=
  (extract_in_low (n1 ++ x) (y ++ n) (k := 0) (n := 4) (by decide)).trans (extract_low y n)

@[simp] theorem hiByte_wordOfBytes (h l : Byte) : hiByte (wordOfBytes h l) = h := extract_high h l
@[simp] theorem loByte_wordOfBytes (h l : Byte) : loByte (wordOfBytes h l) = l := extract_low h l

/-! ### The formats put a word together from its own fields -/

/-- Two neighbouring fields of a word, put together. -/
theorem append_fields (w : Word) (k m n : Nat) :
    (w.extractLsb' (k + m) n : BitVec n) ++ (w.extractLsb' k m : BitVec m) = w.extractLsb' k (n + m) :=
  BitVec.extractLsb'_append_extractLsb'_eq_extractLsb' rfl

@[simp] theorem wordOfBytes_hi_lo (w : Word) : wordOfBytes (hiByte w) (loByte w) = w :=
  (append_fields w 0 8 8).trans (BitVec.extractLsb'_eq_self)
theorem encodeAddr_fields (w : Word) : encodeAddr (nibble w 12) (immAddr w) = w :=
  (append_fields w 0 12 4).trans (BitVec.extractLsb'_eq_self)
theorem encodeByte_fields (w : Word) : encodeByte (nibble w 12) (nibble w 8) (immByte w) = w := by
  have h : (nibble w 12 ++ nibble w 8 : BitVec 8) = w.extractLsb' 8 8 := append_fields w 8 4 4
  unfold encodeByte
  rw [h]
  exact (append_fields w 0 8 8).trans (BitVec.extractLsb'_eq_self)
theorem encodeNibbles_fields (w : Word) :
    encodeNibbles (nibble w 12) (nibble w 8) (nibble w 4) (nibble w 0) = w := by
  have h : (nibble w 12 ++ nibble w 8 : BitVec 8) = w.extractLsb' 8 8 := append_fields w 8 4 4
  have l : (nibble w 4 ++ nibble w 0 : BitVec 8) = w.extractLsb' 0 8 := append_fields w 0 4 4
  unfold encodeNibbles
  rw [h, l]
  exact (append_fields w 0 8 8).trans (BitVec.extractLsb'_eq_self)

/-! ### The formats field by field under AND -/

theorem encodeAddr_and (a c : BitVec 4) (b d : BitVec 12) :
    encodeAddr a b &&& encodeAddr c d = encodeAddr (a &&& c) (b &&& d) := BitVec.and_append
theorem encodeByte_and (a b c d : BitVec 4) (p q : Byte) :
    encodeByte a b p &&& encodeByte c d q = encodeByte (a &&& c) (b &&& d) (p &&& q) := by
  have h : (a ++ b) &&& (c ++ d) = (a &&& c) ++ (b &&& d) := BitVec.and_append
  unfold encodeByte
  rw [← h]
  exact BitVec.and_append
theorem encodeNibbles_and (a b c d e f g h : BitVec 4) :
    encodeNibbles a b c d &&& encodeNibbles e f g h =
      encodeNibbles (a &&& e) (b &&& f) (c &&& g) (d &&& h) := by
  have h1 : (a ++ b) &&& (e ++ f) = (a &&& e) ++ (b &&& f) := BitVec.and_append
  have h2 : (c ++ d) &&& (g ++ h) = (c &&& g) ++ (d &&& h) := BitVec.and_append
  unfold encodeNibbles
  rw [← h1, ← h2]
  exact BitVec.and_append

/-! ### The decoder family by family (30_encoding.md R115) -/

/-- A nibble has one of its sixteen values. -/
theorem nibble_cases (z : BitVec 4) :
    z = 0 ∨ z = 1 ∨ z = 2 ∨ z = 3 ∨ z = 4 ∨ z = 5 ∨ z = 6 ∨ z = 7 ∨ z = 8 ∨ z = 9 ∨ z = 10 ∨ z = 11 ∨ z = 12 ∨
      z = 13 ∨ z = 14 ∨ z = 15 := by
  revert z; decide

variable {mode : BnnnMode} {w : Word}

theorem decode_family0 (h : nibble w 12 = 0) :
    decode mode w = decodeFamily0 (immAddr w) := by
  simp [decode, h]
theorem decode_family1 (h : nibble w 12 = 1) :
    decode mode w = .instr (.jp (immAddr w)) := by
  simp [decode, h]
theorem decode_family2 (h : nibble w 12 = 2) :
    decode mode w = .instr (.call (immAddr w)) := by
  simp [decode, h]
theorem decode_family3 (h : nibble w 12 = 3) :
    decode mode w = .instr (.seImm (nibble w 8) (immByte w)) := by
  simp [decode, h]
theorem decode_family4 (h : nibble w 12 = 4) :
    decode mode w = .instr (.sneImm (nibble w 8) (immByte w)) := by
  simp [decode, h]
theorem decode_family5 (h : nibble w 12 = 5) :
    decode mode w = if nibble w 0 = 0 then .instr (.seReg (nibble w 8) (nibble w 4)) else .unspecified := by
  simp [decode, h]
theorem decode_family6 (h : nibble w 12 = 6) :
    decode mode w = .instr (.ldImm (nibble w 8) (immByte w)) := by
  simp [decode, h]
theorem decode_family7 (h : nibble w 12 = 7) :
    decode mode w = .instr (.addImm (nibble w 8) (immByte w)) := by
  simp [decode, h]
theorem decode_family8 (h : nibble w 12 = 8) :
    decode mode w = decodeFamily8 (nibble w 8) (nibble w 4) (nibble w 0) := by
  simp [decode, h]
theorem decode_family9 (h : nibble w 12 = 9) :
    decode mode w = if nibble w 0 = 0 then .instr (.sneReg (nibble w 8) (nibble w 4)) else .unspecified := by
  simp [decode, h]
theorem decode_familyA (h : nibble w 12 = 10) :
    decode mode w = .instr (.ldI (immAddr w)) := by
  simp [decode, h]
theorem decode_familyB (h : nibble w 12 = 11) :
    decode mode w = decodeFamilyB mode (immAddr w) := by
  simp [decode, h]
theorem decode_familyC (h : nibble w 12 = 12) :
    decode mode w = .instr (.rnd (nibble w 8) (immByte w)) := by
  simp [decode, h]
theorem decode_familyD (h : nibble w 12 = 13) :
    decode mode w = .instr (.drw (nibble w 8) (nibble w 4) (nibble w 0)) := by
  simp [decode, h]
theorem decode_familyE (h : nibble w 12 = 14) :
    decode mode w = decodeFamilyE (nibble w 8) (immByte w) := by
  simp [decode, h]
theorem decode_familyF (h : nibble w 12 = 15) :
    decode mode w = decodeFamilyF (nibble w 8) (immByte w) := by
  simp [decode, h]

end Sys2Proof
end

