-- ==== Sys2Proof/Laws/State.lean ====
section
/-! SUPPORT. The small lemmas of the state's named operations: one per field per update, so that no later proof unfolds a
record update, and what each read gives after each write. -/

namespace Sys2Proof.Machine

variable (s : State)

/-! ### `setV` -/

@[simp] theorem State.setV_params (x : RegIdx) (b : Byte) : (s.setV x b).params = s.params := rfl
@[simp] theorem State.setV_mem (x : RegIdx) (b : Byte) : (s.setV x b).mem = s.mem := rfl
@[simp] theorem State.setV_i (x : RegIdx) (b : Byte) : (s.setV x b).i = s.i := rfl
@[simp] theorem State.setV_pc (x : RegIdx) (b : Byte) : (s.setV x b).pc = s.pc := rfl
@[simp] theorem State.setV_sp (x : RegIdx) (b : Byte) : (s.setV x b).sp = s.sp := rfl
@[simp] theorem State.setV_dt (x : RegIdx) (b : Byte) : (s.setV x b).dt = s.dt := rfl
@[simp] theorem State.setV_st (x : RegIdx) (b : Byte) : (s.setV x b).st = s.st := rfl
@[simp] theorem State.setV_key (x : RegIdx) (b : Byte) : (s.setV x b).key = s.key := rfl
@[simp] theorem State.setV_disp (x : RegIdx) (b : Byte) : (s.setV x b).disp = s.disp := rfl
@[simp] theorem State.setV_eop (x : RegIdx) (b : Byte) : (s.setV x b).eop = s.eop := rfl
@[simp] theorem State.setV_fault (x : RegIdx) (b : Byte) : (s.setV x b).fault = s.fault := rfl
@[simp] theorem State.setV_draws (x : RegIdx) (b : Byte) : (s.setV x b).draws = s.draws := rfl
@[simp] theorem State.getRow_setV (x : RegIdx) (b : Byte) (z : RowIdx) : (s.setV x b).getRow z = s.getRow z := rfl
@[simp] theorem State.byte_setV (x : RegIdx) (b : Byte) (z : Nat) : (s.setV x b).byte z = s.byte z := rfl

/-! ### `setI` -/

@[simp] theorem State.setI_params (w : Word) : (s.setI w).params = s.params := rfl
@[simp] theorem State.setI_mem (w : Word) : (s.setI w).mem = s.mem := rfl
@[simp] theorem State.setI_v (w : Word) : (s.setI w).v = s.v := rfl
@[simp] theorem State.setI_pc (w : Word) : (s.setI w).pc = s.pc := rfl
@[simp] theorem State.setI_sp (w : Word) : (s.setI w).sp = s.sp := rfl
@[simp] theorem State.setI_dt (w : Word) : (s.setI w).dt = s.dt := rfl
@[simp] theorem State.setI_st (w : Word) : (s.setI w).st = s.st := rfl
@[simp] theorem State.setI_key (w : Word) : (s.setI w).key = s.key := rfl
@[simp] theorem State.setI_disp (w : Word) : (s.setI w).disp = s.disp := rfl
@[simp] theorem State.setI_eop (w : Word) : (s.setI w).eop = s.eop := rfl
@[simp] theorem State.setI_fault (w : Word) : (s.setI w).fault = s.fault := rfl
@[simp] theorem State.setI_draws (w : Word) : (s.setI w).draws = s.draws := rfl
@[simp] theorem State.getV_setI (w : Word) (z : RegIdx) : (s.setI w).getV z = s.getV z := rfl
@[simp] theorem State.getRow_setI (w : Word) (z : RowIdx) : (s.setI w).getRow z = s.getRow z := rfl
@[simp] theorem State.byte_setI (w : Word) (z : Nat) : (s.setI w).byte z = s.byte z := rfl

/-! ### `setDt` -/

@[simp] theorem State.setDt_params (b : Byte) : (s.setDt b).params = s.params := rfl
@[simp] theorem State.setDt_mem (b : Byte) : (s.setDt b).mem = s.mem := rfl
@[simp] theorem State.setDt_v (b : Byte) : (s.setDt b).v = s.v := rfl
@[simp] theorem State.setDt_i (b : Byte) : (s.setDt b).i = s.i := rfl
@[simp] theorem State.setDt_pc (b : Byte) : (s.setDt b).pc = s.pc := rfl
@[simp] theorem State.setDt_sp (b : Byte) : (s.setDt b).sp = s.sp := rfl
@[simp] theorem State.setDt_st (b : Byte) : (s.setDt b).st = s.st := rfl
@[simp] theorem State.setDt_key (b : Byte) : (s.setDt b).key = s.key := rfl
@[simp] theorem State.setDt_disp (b : Byte) : (s.setDt b).disp = s.disp := rfl
@[simp] theorem State.setDt_eop (b : Byte) : (s.setDt b).eop = s.eop := rfl
@[simp] theorem State.setDt_fault (b : Byte) : (s.setDt b).fault = s.fault := rfl
@[simp] theorem State.setDt_draws (b : Byte) : (s.setDt b).draws = s.draws := rfl
@[simp] theorem State.getV_setDt (b : Byte) (z : RegIdx) : (s.setDt b).getV z = s.getV z := rfl
@[simp] theorem State.getRow_setDt (b : Byte) (z : RowIdx) : (s.setDt b).getRow z = s.getRow z := rfl
@[simp] theorem State.byte_setDt (b : Byte) (z : Nat) : (s.setDt b).byte z = s.byte z := rfl

/-! ### `setSt` -/

@[simp] theorem State.setSt_params (b : Byte) : (s.setSt b).params = s.params := rfl
@[simp] theorem State.setSt_mem (b : Byte) : (s.setSt b).mem = s.mem := rfl
@[simp] theorem State.setSt_v (b : Byte) : (s.setSt b).v = s.v := rfl
@[simp] theorem State.setSt_i (b : Byte) : (s.setSt b).i = s.i := rfl
@[simp] theorem State.setSt_pc (b : Byte) : (s.setSt b).pc = s.pc := rfl
@[simp] theorem State.setSt_sp (b : Byte) : (s.setSt b).sp = s.sp := rfl
@[simp] theorem State.setSt_dt (b : Byte) : (s.setSt b).dt = s.dt := rfl
@[simp] theorem State.setSt_key (b : Byte) : (s.setSt b).key = s.key := rfl
@[simp] theorem State.setSt_disp (b : Byte) : (s.setSt b).disp = s.disp := rfl
@[simp] theorem State.setSt_eop (b : Byte) : (s.setSt b).eop = s.eop := rfl
@[simp] theorem State.setSt_fault (b : Byte) : (s.setSt b).fault = s.fault := rfl
@[simp] theorem State.setSt_draws (b : Byte) : (s.setSt b).draws = s.draws := rfl
@[simp] theorem State.getV_setSt (b : Byte) (z : RegIdx) : (s.setSt b).getV z = s.getV z := rfl
@[simp] theorem State.getRow_setSt (b : Byte) (z : RowIdx) : (s.setSt b).getRow z = s.getRow z := rfl
@[simp] theorem State.byte_setSt (b : Byte) (z : Nat) : (s.setSt b).byte z = s.byte z := rfl

/-! ### `setKey` -/

@[simp] theorem State.setKey_params (k : Option (BitVec 4)) : (s.setKey k).params = s.params := rfl
@[simp] theorem State.setKey_mem (k : Option (BitVec 4)) : (s.setKey k).mem = s.mem := rfl
@[simp] theorem State.setKey_v (k : Option (BitVec 4)) : (s.setKey k).v = s.v := rfl
@[simp] theorem State.setKey_i (k : Option (BitVec 4)) : (s.setKey k).i = s.i := rfl
@[simp] theorem State.setKey_pc (k : Option (BitVec 4)) : (s.setKey k).pc = s.pc := rfl
@[simp] theorem State.setKey_sp (k : Option (BitVec 4)) : (s.setKey k).sp = s.sp := rfl
@[simp] theorem State.setKey_dt (k : Option (BitVec 4)) : (s.setKey k).dt = s.dt := rfl
@[simp] theorem State.setKey_st (k : Option (BitVec 4)) : (s.setKey k).st = s.st := rfl
@[simp] theorem State.setKey_disp (k : Option (BitVec 4)) : (s.setKey k).disp = s.disp := rfl
@[simp] theorem State.setKey_eop (k : Option (BitVec 4)) : (s.setKey k).eop = s.eop := rfl
@[simp] theorem State.setKey_fault (k : Option (BitVec 4)) : (s.setKey k).fault = s.fault := rfl
@[simp] theorem State.setKey_draws (k : Option (BitVec 4)) : (s.setKey k).draws = s.draws := rfl
@[simp] theorem State.getV_setKey (k : Option (BitVec 4)) (z : RegIdx) : (s.setKey k).getV z = s.getV z := rfl
@[simp] theorem State.getRow_setKey (k : Option (BitVec 4)) (z : RowIdx) : (s.setKey k).getRow z = s.getRow z := rfl
@[simp] theorem State.byte_setKey (k : Option (BitVec 4)) (z : Nat) : (s.setKey k).byte z = s.byte z := rfl

/-! ### `setRow` -/

@[simp] theorem State.setRow_params (r : RowIdx) (w : Row) : (s.setRow r w).params = s.params := rfl
@[simp] theorem State.setRow_mem (r : RowIdx) (w : Row) : (s.setRow r w).mem = s.mem := rfl
@[simp] theorem State.setRow_v (r : RowIdx) (w : Row) : (s.setRow r w).v = s.v := rfl
@[simp] theorem State.setRow_i (r : RowIdx) (w : Row) : (s.setRow r w).i = s.i := rfl
@[simp] theorem State.setRow_pc (r : RowIdx) (w : Row) : (s.setRow r w).pc = s.pc := rfl
@[simp] theorem State.setRow_sp (r : RowIdx) (w : Row) : (s.setRow r w).sp = s.sp := rfl
@[simp] theorem State.setRow_dt (r : RowIdx) (w : Row) : (s.setRow r w).dt = s.dt := rfl
@[simp] theorem State.setRow_st (r : RowIdx) (w : Row) : (s.setRow r w).st = s.st := rfl
@[simp] theorem State.setRow_key (r : RowIdx) (w : Row) : (s.setRow r w).key = s.key := rfl
@[simp] theorem State.setRow_eop (r : RowIdx) (w : Row) : (s.setRow r w).eop = s.eop := rfl
@[simp] theorem State.setRow_fault (r : RowIdx) (w : Row) : (s.setRow r w).fault = s.fault := rfl
@[simp] theorem State.setRow_draws (r : RowIdx) (w : Row) : (s.setRow r w).draws = s.draws := rfl
@[simp] theorem State.getV_setRow (r : RowIdx) (w : Row) (z : RegIdx) : (s.setRow r w).getV z = s.getV z := rfl
@[simp] theorem State.byte_setRow (r : RowIdx) (w : Row) (z : Nat) : (s.setRow r w).byte z = s.byte z := rfl

/-! ### `clearRows` -/

@[simp] theorem State.clearRows_params : (s.clearRows).params = s.params := rfl
@[simp] theorem State.clearRows_mem : (s.clearRows).mem = s.mem := rfl
@[simp] theorem State.clearRows_v : (s.clearRows).v = s.v := rfl
@[simp] theorem State.clearRows_i : (s.clearRows).i = s.i := rfl
@[simp] theorem State.clearRows_pc : (s.clearRows).pc = s.pc := rfl
@[simp] theorem State.clearRows_sp : (s.clearRows).sp = s.sp := rfl
@[simp] theorem State.clearRows_dt : (s.clearRows).dt = s.dt := rfl
@[simp] theorem State.clearRows_st : (s.clearRows).st = s.st := rfl
@[simp] theorem State.clearRows_key : (s.clearRows).key = s.key := rfl
@[simp] theorem State.clearRows_eop : (s.clearRows).eop = s.eop := rfl
@[simp] theorem State.clearRows_fault : (s.clearRows).fault = s.fault := rfl
@[simp] theorem State.clearRows_draws : (s.clearRows).draws = s.draws := rfl
@[simp] theorem State.getV_clearRows (z : RegIdx) : (s.clearRows).getV z = s.getV z := rfl
@[simp] theorem State.byte_clearRows (z : Nat) : (s.clearRows).byte z = s.byte z := rfl

/-! ### `setSp` -/

@[simp] theorem State.setSp_params (w : Word) : (s.setSp w).params = s.params := rfl
@[simp] theorem State.setSp_mem (w : Word) : (s.setSp w).mem = s.mem := rfl
@[simp] theorem State.setSp_v (w : Word) : (s.setSp w).v = s.v := rfl
@[simp] theorem State.setSp_i (w : Word) : (s.setSp w).i = s.i := rfl
@[simp] theorem State.setSp_pc (w : Word) : (s.setSp w).pc = s.pc := rfl
@[simp] theorem State.setSp_dt (w : Word) : (s.setSp w).dt = s.dt := rfl
@[simp] theorem State.setSp_st (w : Word) : (s.setSp w).st = s.st := rfl
@[simp] theorem State.setSp_key (w : Word) : (s.setSp w).key = s.key := rfl
@[simp] theorem State.setSp_disp (w : Word) : (s.setSp w).disp = s.disp := rfl
@[simp] theorem State.setSp_eop (w : Word) : (s.setSp w).eop = s.eop := rfl
@[simp] theorem State.setSp_fault (w : Word) : (s.setSp w).fault = s.fault := rfl
@[simp] theorem State.setSp_written (w : Word) : (s.setSp w).written = s.written := rfl
@[simp] theorem State.setSp_draws (w : Word) : (s.setSp w).draws = s.draws := rfl
@[simp] theorem State.getV_setSp (w : Word) (z : RegIdx) : (s.setSp w).getV z = s.getV z := rfl
@[simp] theorem State.getRow_setSp (w : Word) (z : RowIdx) : (s.setSp w).getRow z = s.getRow z := rfl
@[simp] theorem State.byte_setSp (w : Word) (z : Nat) : (s.setSp w).byte z = s.byte z := rfl
@[simp] theorem State.has_setSp (w : Word) (f : Field) : (s.setSp w).has f = s.has f := by cases f <;> rfl

/-! ### `setPc` -/

@[simp] theorem State.setPc_params (w : Word) : (s.setPc w).params = s.params := rfl
@[simp] theorem State.setPc_mem (w : Word) : (s.setPc w).mem = s.mem := rfl
@[simp] theorem State.setPc_v (w : Word) : (s.setPc w).v = s.v := rfl
@[simp] theorem State.setPc_i (w : Word) : (s.setPc w).i = s.i := rfl
@[simp] theorem State.setPc_sp (w : Word) : (s.setPc w).sp = s.sp := rfl
@[simp] theorem State.setPc_dt (w : Word) : (s.setPc w).dt = s.dt := rfl
@[simp] theorem State.setPc_st (w : Word) : (s.setPc w).st = s.st := rfl
@[simp] theorem State.setPc_key (w : Word) : (s.setPc w).key = s.key := rfl
@[simp] theorem State.setPc_disp (w : Word) : (s.setPc w).disp = s.disp := rfl
@[simp] theorem State.setPc_eop (w : Word) : (s.setPc w).eop = s.eop := rfl
@[simp] theorem State.setPc_fault (w : Word) : (s.setPc w).fault = s.fault := rfl
@[simp] theorem State.setPc_written (w : Word) : (s.setPc w).written = s.written := rfl
@[simp] theorem State.setPc_draws (w : Word) : (s.setPc w).draws = s.draws := rfl
@[simp] theorem State.getV_setPc (w : Word) (z : RegIdx) : (s.setPc w).getV z = s.getV z := rfl
@[simp] theorem State.getRow_setPc (w : Word) (z : RowIdx) : (s.setPc w).getRow z = s.getRow z := rfl
@[simp] theorem State.byte_setPc (w : Word) (z : Nat) : (s.setPc w).byte z = s.byte z := rfl
@[simp] theorem State.has_setPc (w : Word) (f : Field) : (s.setPc w).has f = s.has f := by cases f <;> rfl

/-! ### `countDraw` -/

@[simp] theorem State.countDraw_params : (s.countDraw).params = s.params := rfl
@[simp] theorem State.countDraw_mem : (s.countDraw).mem = s.mem := rfl
@[simp] theorem State.countDraw_v : (s.countDraw).v = s.v := rfl
@[simp] theorem State.countDraw_i : (s.countDraw).i = s.i := rfl
@[simp] theorem State.countDraw_pc : (s.countDraw).pc = s.pc := rfl
@[simp] theorem State.countDraw_sp : (s.countDraw).sp = s.sp := rfl
@[simp] theorem State.countDraw_dt : (s.countDraw).dt = s.dt := rfl
@[simp] theorem State.countDraw_st : (s.countDraw).st = s.st := rfl
@[simp] theorem State.countDraw_key : (s.countDraw).key = s.key := rfl
@[simp] theorem State.countDraw_disp : (s.countDraw).disp = s.disp := rfl
@[simp] theorem State.countDraw_eop : (s.countDraw).eop = s.eop := rfl
@[simp] theorem State.countDraw_fault : (s.countDraw).fault = s.fault := rfl
@[simp] theorem State.countDraw_written : (s.countDraw).written = s.written := rfl
@[simp] theorem State.getV_countDraw (z : RegIdx) : (s.countDraw).getV z = s.getV z := rfl
@[simp] theorem State.getRow_countDraw (z : RowIdx) : (s.countDraw).getRow z = s.getRow z := rfl
@[simp] theorem State.byte_countDraw (z : Nat) : (s.countDraw).byte z = s.byte z := rfl
@[simp] theorem State.has_countDraw (f : Field) : (s.countDraw).has f = s.has f := by cases f <;> rfl

/-! ### `setByte` -/

@[simp] theorem State.setByte_params (a : Nat) (b : Byte) : (s.setByte a b).params = s.params := rfl
@[simp] theorem State.setByte_v (a : Nat) (b : Byte) : (s.setByte a b).v = s.v := rfl
@[simp] theorem State.setByte_i (a : Nat) (b : Byte) : (s.setByte a b).i = s.i := rfl
@[simp] theorem State.setByte_pc (a : Nat) (b : Byte) : (s.setByte a b).pc = s.pc := rfl
@[simp] theorem State.setByte_sp (a : Nat) (b : Byte) : (s.setByte a b).sp = s.sp := rfl
@[simp] theorem State.setByte_dt (a : Nat) (b : Byte) : (s.setByte a b).dt = s.dt := rfl
@[simp] theorem State.setByte_st (a : Nat) (b : Byte) : (s.setByte a b).st = s.st := rfl
@[simp] theorem State.setByte_key (a : Nat) (b : Byte) : (s.setByte a b).key = s.key := rfl
@[simp] theorem State.setByte_disp (a : Nat) (b : Byte) : (s.setByte a b).disp = s.disp := rfl
@[simp] theorem State.setByte_eop (a : Nat) (b : Byte) : (s.setByte a b).eop = s.eop := rfl
@[simp] theorem State.setByte_fault (a : Nat) (b : Byte) : (s.setByte a b).fault = s.fault := rfl
@[simp] theorem State.setByte_written (a : Nat) (b : Byte) : (s.setByte a b).written = s.written := rfl
@[simp] theorem State.setByte_draws (a : Nat) (b : Byte) : (s.setByte a b).draws = s.draws := rfl
@[simp] theorem State.getV_setByte (a : Nat) (b : Byte) (z : RegIdx) : (s.setByte a b).getV z = s.getV z := rfl
@[simp] theorem State.getRow_setByte (a : Nat) (b : Byte) (z : RowIdx) : (s.setByte a b).getRow z = s.getRow z := rfl
@[simp] theorem State.has_setByte (a : Nat) (b : Byte) (f : Field) : (s.setByte a b).has f = s.has f := by cases f <;> rfl

/-! ### `raised` -/

@[simp] theorem State.raised_params (r : Fault) : (s.raised r).params = s.params := rfl
@[simp] theorem State.raised_mem (r : Fault) : (s.raised r).mem = s.mem := rfl
@[simp] theorem State.raised_v (r : Fault) : (s.raised r).v = s.v := rfl
@[simp] theorem State.raised_i (r : Fault) : (s.raised r).i = s.i := rfl
@[simp] theorem State.raised_pc (r : Fault) : (s.raised r).pc = s.pc := rfl
@[simp] theorem State.raised_sp (r : Fault) : (s.raised r).sp = s.sp := rfl
@[simp] theorem State.raised_dt (r : Fault) : (s.raised r).dt = s.dt := rfl
@[simp] theorem State.raised_st (r : Fault) : (s.raised r).st = s.st := rfl
@[simp] theorem State.raised_key (r : Fault) : (s.raised r).key = s.key := rfl
@[simp] theorem State.raised_disp (r : Fault) : (s.raised r).disp = s.disp := rfl
@[simp] theorem State.raised_eop (r : Fault) : (s.raised r).eop = s.eop := rfl
@[simp] theorem State.raised_written (r : Fault) : (s.raised r).written = s.written := rfl
@[simp] theorem State.raised_draws (r : Fault) : (s.raised r).draws = s.draws := rfl
@[simp] theorem State.getV_raised (r : Fault) (z : RegIdx) : (s.raised r).getV z = s.getV z := rfl
@[simp] theorem State.getRow_raised (r : Fault) (z : RowIdx) : (s.raised r).getRow z = s.getRow z := rfl
@[simp] theorem State.byte_raised (r : Fault) (z : Nat) : (s.raised r).byte z = s.byte z := rfl
@[simp] theorem State.has_raised (r : Fault) (f : Field) : (s.raised r).has f = s.has f := by cases f <;> rfl

/-! ### `ended` -/

@[simp] theorem State.ended_params : (s.ended).params = s.params := rfl
@[simp] theorem State.ended_mem : (s.ended).mem = s.mem := rfl
@[simp] theorem State.ended_v : (s.ended).v = s.v := rfl
@[simp] theorem State.ended_i : (s.ended).i = s.i := rfl
@[simp] theorem State.ended_pc : (s.ended).pc = s.pc := rfl
@[simp] theorem State.ended_sp : (s.ended).sp = s.sp := rfl
@[simp] theorem State.ended_dt : (s.ended).dt = s.dt := rfl
@[simp] theorem State.ended_st : (s.ended).st = s.st := rfl
@[simp] theorem State.ended_key : (s.ended).key = s.key := rfl
@[simp] theorem State.ended_disp : (s.ended).disp = s.disp := rfl
@[simp] theorem State.ended_fault : (s.ended).fault = s.fault := rfl
@[simp] theorem State.ended_written : (s.ended).written = s.written := rfl
@[simp] theorem State.ended_draws : (s.ended).draws = s.draws := rfl
@[simp] theorem State.getV_ended (z : RegIdx) : (s.ended).getV z = s.getV z := rfl
@[simp] theorem State.getRow_ended (z : RowIdx) : (s.ended).getRow z = s.getRow z := rfl
@[simp] theorem State.byte_ended (z : Nat) : (s.ended).byte z = s.byte z := rfl
@[simp] theorem State.has_ended (f : Field) : (s.ended).has f = s.has f := by cases f <;> rfl

/-! ### The field each update writes -/

@[simp] theorem State.setI_i (w : Word) : (s.setI w).i = w := rfl
@[simp] theorem State.setDt_dt (b : Byte) : (s.setDt b).dt = b := rfl
@[simp] theorem State.setSt_st (b : Byte) : (s.setSt b).st = b := rfl
@[simp] theorem State.setKey_key (k : Option (BitVec 4)) : (s.setKey k).key = k := rfl
@[simp] theorem State.setSp_sp (w : Word) : (s.setSp w).sp = w := rfl
@[simp] theorem State.setPc_pc (w : Word) : (s.setPc w).pc = w := rfl
@[simp] theorem State.countDraw_draws : s.countDraw.draws = s.draws + 1 := rfl
@[simp] theorem State.setByte_mem (a : Nat) (b : Byte) : (s.setByte a b).mem = Mem.write s.mem a b := rfl
@[simp] theorem State.ended_eop : s.ended.eop = true := rfl
@[simp] theorem State.raised_fault (r : Fault) :
    (s.raised r).fault = some { reason := r, pc := s.pc, word := s.fetchWord } := rfl

theorem State.getV_setV (x : RegIdx) (b : Byte) (k : RegIdx) :
    (s.setV x b).getV k = if k = x then b else s.getV k := by
  unfold State.setV State.getV
  by_cases h : k = x
  · subst h; simp
  · have : x.toNat ≠ k.toNat := fun e => h (BitVec.eq_of_toNat_eq e.symm)
    simp [this, h]

@[simp] theorem State.getV_setV_same (x : RegIdx) (b : Byte) : (s.setV x b).getV x = b := by
  simp [State.getV_setV]

theorem State.getV_setV_of_ne {x k : RegIdx} (b : Byte) (h : k ≠ x) : (s.setV x b).getV k = s.getV k := by
  simp [State.getV_setV, h]

theorem State.getRow_setRow (r : RowIdx) (w : Row) (k : RowIdx) :
    (s.setRow r w).getRow k = if k = r then w else s.getRow k := by
  unfold State.setRow State.getRow
  by_cases h : k = r
  · subst h; simp
  · have : r.toNat ≠ k.toNat := fun e => h (BitVec.eq_of_toNat_eq e.symm)
    simp [this, h]

@[simp] theorem State.getRow_setRow_same (r : RowIdx) (w : Row) : (s.setRow r w).getRow r = w := by
  simp [State.getRow_setRow]

@[simp] theorem State.getRow_clearRows (r : RowIdx) : s.clearRows.getRow r = 0 := by
  simp [State.clearRows, State.getRow]

/-! ### WRITTEN after each write of a tracked field -/

@[simp] theorem State.has_setV (x : RegIdx) (b : Byte) (f : Field) :
    (s.setV x b).has f = (decide (f = .v x) || s.has f) := by
  cases f <;> try (simp [State.has, State.setV]; done)
  rename_i k
  by_cases h : k = x
  · subst h; simp [State.has, State.setV]
  · have : x.toNat ≠ k.toNat := fun e => h (BitVec.eq_of_toNat_eq e.symm)
    simp [State.has, State.setV, this, h]

@[simp] theorem State.has_setI (w : Word) (f : Field) : (s.setI w).has f = (decide (f = .i) || s.has f) := by
  cases f <;> simp [State.has, State.setI]

@[simp] theorem State.has_setDt (b : Byte) (f : Field) : (s.setDt b).has f = (decide (f = .dt) || s.has f) := by
  cases f <;> simp [State.has, State.setDt]

@[simp] theorem State.has_setSt (b : Byte) (f : Field) : (s.setSt b).has f = (decide (f = .st) || s.has f) := by
  cases f <;> simp [State.has, State.setSt]

@[simp] theorem State.has_setKey (k : Option (BitVec 4)) (f : Field) :
    (s.setKey k).has f = (decide (f = .key) || s.has f) := by
  cases f <;> simp [State.has, State.setKey]

@[simp] theorem State.has_setRow (r : RowIdx) (w : Row) (f : Field) :
    (s.setRow r w).has f = (decide (f = .disp r) || s.has f) := by
  cases f <;> try (simp [State.has, State.setRow]; done)
  rename_i k
  by_cases h : k = r
  · subst h; simp [State.has, State.setRow]
  · have : r.toNat ≠ k.toNat := fun e => h (BitVec.eq_of_toNat_eq e.symm)
    simp [State.has, State.setRow, this, h]

@[simp] theorem State.has_clearRows_disp (r : RowIdx) : s.clearRows.has (.disp r) = true := by
  simp [State.has, State.clearRows]
@[simp] theorem State.has_clearRows_v (x : RegIdx) : s.clearRows.has (.v x) = s.has (.v x) := rfl
@[simp] theorem State.has_clearRows_i : s.clearRows.has .i = s.has .i := rfl
@[simp] theorem State.has_clearRows_dt : s.clearRows.has .dt = s.has .dt := rfl
@[simp] theorem State.has_clearRows_st : s.clearRows.has .st = s.has .st := rfl
@[simp] theorem State.has_clearRows_key : s.clearRows.has .key = s.has .key := rfl

/-! ### Updates built from others -/

theorem State.advance_eq : s.advance = s.setPc (s.pc + 2) := rfl
theorem State.skip_eq (c : Bool) : s.skip c = s.setPc (if c then s.pc + 4 else s.pc + 2) := rfl
theorem State.setWord_eq (a : Nat) (w : Word) :
    s.setWord a w = (s.setByte a (hiByte w)).setByte (a + 1) (loByte w) := rfl

end Sys2Proof.Machine
end

