-- ==== Sys2Proof/Laws/Memory.lean ====
section
/-! SUPPORT. The laws of memory: a read after a write, and that every memory operation keeps the canonical form. -/

namespace Sys2Proof.Machine

/-! ### Reading after writing, in any memory -/

theorem Mem.read_erase_ne (m : List Host.Cell) {a k : Nat} (h : k ≠ a) : Mem.read (Mem.erase m a) k = Mem.read m k := by
  induction m with
  | nil => rfl
  | cons c m ih =>
    by_cases hc : c.1 = a
    · have hk : ¬c.1 = k := fun e => h (e.symm.trans hc)
      simpa [Mem.erase, Mem.read, hc, hk, Ne.symm h] using ih
    · simp [Mem.erase, hc, Mem.read] at ih ⊢
      rw [ih]

theorem Mem.read_erase_same (m : List Host.Cell) (a : Nat) : Mem.read (Mem.erase m a) a = Mem.unlisted a := by
  induction m with
  | nil => rfl
  | cons c m ih =>
    by_cases hc : c.1 = a
    · simpa [Mem.erase, hc] using ih
    · simpa [Mem.erase, hc, Mem.read] using ih

theorem Mem.read_insert_ne (m : List Host.Cell) {a k : Nat} (b : Byte) (h : k ≠ a) :
    Mem.read (Mem.insert a b m) k = Mem.read m k := by
  induction m with
  | nil => simp [Mem.insert, Mem.read, Ne.symm h]
  | cons c m ih =>
    unfold Mem.insert
    split
    · simp [Mem.read, Ne.symm h]
    · simp [Mem.read, ih]

theorem Mem.read_insert_erase (m : List Host.Cell) (a : Nat) (b : Byte) :
    Mem.read (Mem.insert a b (Mem.erase m a)) a = b := by
  induction m with
  | nil => simp [Mem.erase, Mem.insert, Mem.read]
  | cons c m ih =>
    by_cases hc : c.1 = a
    · simpa [Mem.erase, hc] using ih
    · have : Mem.erase (c :: m) a = c :: Mem.erase m a := by simp [Mem.erase, hc]
      rw [this]
      unfold Mem.insert
      split
      · simp [Mem.read]
      · simpa [Mem.read, hc] using ih

theorem Mem.read_write (m : List Host.Cell) (a : Nat) (b : Byte) (k : Nat) :
    Mem.read (Mem.write m a b) k = if k = a then b else Mem.read m k := by
  unfold Mem.write
  by_cases h : k = a
  · subst h
    by_cases hb : b = Mem.unlisted k
    · simp [hb, Mem.read_erase_same]
    · simp [hb, Mem.read_insert_erase]
  · by_cases hb : b = Mem.unlisted a
    · simp [hb, h, Mem.read_erase_ne m h]
    · simp [hb, h, Mem.read_insert_ne _ b h, Mem.read_erase_ne m h]

theorem Mem.read_writeAll (bytes : List Byte) (base : Nat) (m : List Host.Cell) (k : Nat) :
    Mem.read (Mem.writeAll base bytes m) k =
      if base ≤ k ∧ k < base + bytes.length then bytes.getD (k - base) 0 else Mem.read m k := by
  induction bytes generalizing base m with
  | nil => simp [Mem.writeAll]
  | cons b bs ih =>
    rw [Mem.writeAll, ih, Mem.read_write]
    by_cases h : k = base
    · subst h; simp
    · by_cases h1 : base + 1 ≤ k
      · have e : k - base = (k - (base + 1)) + 1 := by omega
        rw [e, List.getD_cons_succ]
        have : (base + 1 ≤ k ∧ k < base + 1 + bs.length) ↔ (base ≤ k ∧ k < base + (b :: bs).length) := by
          simp only [List.length_cons]; omega
        simp only [this, h, if_false]
      · have h2 : ¬(base ≤ k ∧ k < base + (b :: bs).length) := by omega
        have h3 : ¬(base + 1 ≤ k ∧ k < base + 1 + bs.length) := by omega
        rw [if_neg h2, if_neg h3, if_neg h]

theorem State.byte_setByte (s : State) (a : Nat) (b : Byte) (k : Nat) :
    (s.setByte a b).byte k = if k = a then b else s.byte k := Mem.read_write s.mem a b k

@[simp] theorem State.byte_setByte_same (s : State) (a : Nat) (b : Byte) : (s.setByte a b).byte a = b := by
  simp [State.byte_setByte]

theorem State.byte_setWord (s : State) (a : Nat) (w : Word) (k : Nat) :
    (s.setWord a w).byte k = if k = a + 1 then loByte w else if k = a then hiByte w else s.byte k := by
  simp [State.setWord_eq, State.byte_setByte]

/-! ### The canonical form -/

theorem Mem.wfFrom_iff (lo : Option Nat) (m : List Host.Cell) :
    Mem.wfFrom lo m = true ↔
      (∀ k, lo = some k → ∀ c ∈ m, k < c.1) ∧ m.Pairwise (fun c d => c.1 < d.1) ∧
        ∀ c ∈ m, c.1 < memSize ∧ c.2 ≠ Mem.unlisted c.1 := by
  induction m generalizing lo with
  | nil => simp [Mem.wfFrom]
  | cons c m ih =>
    simp only [Mem.wfFrom, Bool.and_eq_true, ih, decide_eq_true_eq, List.pairwise_cons, List.mem_cons,
      forall_eq_or_imp, Option.some.injEq, forall_eq']
    constructor
    · rintro ⟨⟨⟨h1, h2⟩, h3⟩, h4, h5, h6⟩
      refine ⟨fun k hk => ?_, ⟨h4, h5⟩, ⟨h2, h3⟩, h6⟩
      subst hk
      simp only [decide_eq_true_eq] at h1
      exact ⟨h1, fun d hd => lt_trans h1 (h4 d hd)⟩
    · rintro ⟨h1, ⟨h4, h5⟩, ⟨h2, h3⟩, h6⟩
      refine ⟨⟨⟨?_, h2⟩, h3⟩, h4, h5, h6⟩
      cases lo with
      | none => rfl
      | some k => simpa using (h1 k rfl).1

theorem Mem.wf_iff (m : List Host.Cell) :
    Mem.wf m = true ↔
      m.Pairwise (fun c d => c.1 < d.1) ∧ ∀ c ∈ m, c.1 < memSize ∧ c.2 ≠ Mem.unlisted c.1 := by
  simp [Mem.wf, Mem.wfFrom_iff]

theorem Mem.wf_erase {m : List Host.Cell} (h : Mem.wf m = true) (a : Nat) : Mem.wf (Mem.erase m a) = true := by
  rw [Mem.wf_iff] at h ⊢
  exact ⟨h.1.filter _, fun c hc => h.2 c (List.mem_filter.mp hc).1⟩

theorem Mem.mem_insert (a : Nat) (b : Byte) (m : List Host.Cell) (c : Host.Cell) :
    c ∈ Mem.insert a b m ↔ c = (a, b) ∨ c ∈ m := by
  induction m with
  | nil => simp [Mem.insert]
  | cons d m ih =>
    unfold Mem.insert
    split
    · simp
    · simp [ih]; tauto

theorem Mem.wf_insert {m : List Host.Cell} {a : Nat} {b : Byte} (h : Mem.wf m = true) (ha : a < memSize)
    (hb : b ≠ Mem.unlisted a) (hn : ∀ c ∈ m, c.1 ≠ a) : Mem.wf (Mem.insert a b m) = true := by
  rw [Mem.wf_iff] at h ⊢
  obtain ⟨hp, hc⟩ := h
  refine ⟨?_, fun c hm => ?_⟩
  · induction m with
    | nil => simp [Mem.insert]
    | cons d m ih =>
      unfold Mem.insert
      rw [List.pairwise_cons] at hp
      split
      · rename_i hlt
        refine List.pairwise_cons.mpr ⟨fun e he => ?_, List.pairwise_cons.mpr hp⟩
        rcases List.mem_cons.mp he with rfl | he
        · exact hlt
        · exact lt_trans hlt (hp.1 e he)
      · rename_i hlt
        refine List.pairwise_cons.mpr ⟨fun e he => ?_,
          ih (fun c hm => hn c (List.mem_cons_of_mem _ hm)) hp.2 (fun c hm => hc c (List.mem_cons_of_mem _ hm))⟩
        rcases (Mem.mem_insert a b m e).mp he with rfl | he
        · have := hn d (List.mem_cons_self ..); simp only; omega
        · exact hp.1 e he
  · rcases (Mem.mem_insert a b m c).mp hm with rfl | hm
    · exact ⟨ha, hb⟩
    · exact hc c hm

/-- A write inside memory keeps the canonical form. -/
theorem Mem.wf_write {m : List Host.Cell} {a : Nat} (h : Mem.wf m = true) (ha : a < memSize) (b : Byte) :
    Mem.wf (Mem.write m a b) = true := by
  unfold Mem.write
  split
  · exact Mem.wf_erase h a
  · rename_i hb
    refine Mem.wf_insert (Mem.wf_erase h a) ha hb fun c hc => ?_
    have := (List.mem_filter.mp hc).2
    simpa using this

theorem Mem.wf_writeAll (bytes : List Byte) {base : Nat} {m : List Host.Cell} (h : Mem.wf m = true)
    (hb : base + bytes.length ≤ memSize) : Mem.wf (Mem.writeAll base bytes m) = true := by
  induction bytes generalizing base m with
  | nil => exact h
  | cons b bs ih =>
    simp only [List.length_cons] at hb
    exact ih (Mem.wf_write h (by omega) b) (by omega)

theorem State.wf_setByte {s : State} {a : Nat} (h : Mem.wf s.mem = true) (ha : a < memSize) (b : Byte) :
    Mem.wf (s.setByte a b).mem = true := Mem.wf_write h ha b

theorem State.wf_setWord {s : State} {a : Nat} (h : Mem.wf s.mem = true) (ha : a + 1 < memSize) (w : Word) :
    Mem.wf (s.setWord a w).mem = true :=
  State.wf_setByte (State.wf_setByte h (by omega) _) ha _

/-- The memory of the machine after reset has its canonical form. -/
theorem State.wf_reset : Mem.wf State.reset.mem = true := rfl

end Sys2Proof.Machine
end

