-- ==== Sys2Proof/Laws/Ops.lean ====
section
/-! SUPPORT. One lemma per shared operation of Machine/Ops.lean, Flags.lean, Index.lean and Display.lean that says once
everything it can do. The proofs cite these and do not unfold the operations. -/

namespace Sys2Proof.Machine

variable {s t : State}

/-! ### Reading tracked fields -/

theorem State.firstUnwritten_eq_none {fs : List Field} : s.firstUnwritten fs = none ↔ ∀ f ∈ fs, s.has f = true := by
  simp [State.firstUnwritten]

/-- Reading fields that are all in WRITTEN goes on. -/
theorem State.reading_of_has {fs : List Field} (h : ∀ f ∈ fs, s.has f = true) (k : Result) : s.reading fs k = k := by
  simp [State.reading, State.firstUnwritten_eq_none.mpr h]

/-- Reading raises `UnwrittenRead` with the first field that is not in WRITTEN. -/
theorem State.reading_of_unwritten {fs : List Field} {f : Field} (h : s.firstUnwritten fs = some f) (k : Result) :
    s.reading fs k = .next (s.raised (.unwrittenRead f)) := by
  simp [State.reading, h, State.raise]

/-- What a read that answers a next state has done: gone on with every field written, or raised `UnwrittenRead`. -/
theorem State.reading_next {fs : List Field} {k : Result} (h : s.reading fs k = .next t) :
    (k = .next t ∧ ∀ f ∈ fs, s.has f = true) ∨
      ∃ f, s.firstUnwritten fs = some f ∧ t = s.raised (.unwrittenRead f) := by
  cases hf : s.firstUnwritten fs with
  | none => exact .inl ⟨by simpa [State.reading, hf] using h, State.firstUnwritten_eq_none.mp hf⟩
  | some f => exact .inr ⟨f, rfl, by simpa [State.reading, hf, State.raise, eq_comm] using h⟩

/-! ### Touching memory -/

/-- An access inside memory goes on. -/
theorem State.accessing_of_le {base n : Nat} (h : base + n ≤ memSize) (k : Result) : s.accessing base n k = k := by
  have : ¬(0 < n ∧ memSize < base + n) := by omega
  simp [State.accessing, this]

/-- An access of no byte goes on. -/
theorem State.accessing_zero (base : Nat) (k : Result) : s.accessing base 0 k = k := by simp [State.accessing]

/-- An access that passes the end of memory raises `MemOutOfRange` with the first address above 0xFFF. -/
theorem State.accessing_of_lt {base n : Nat} (hn : 0 < n) (h : memSize < base + n) (k : Result) :
    s.accessing base n k = .next (s.raised (.memOutOfRange (max base memSize))) := by
  simp [State.accessing, hn, h, State.raise]

/-- What an access that answers a next state has done. -/
theorem State.accessing_next {base n : Nat} {k : Result} (h : s.accessing base n k = .next t) :
    (k = .next t ∧ (n = 0 ∨ base + n ≤ memSize)) ∨
      (0 < n ∧ memSize < base + n ∧ t = s.raised (.memOutOfRange (max base memSize))) := by
  unfold State.accessing at h
  split at h
  · rename_i hc
    exact .inr ⟨hc.1, hc.2, by simpa [State.raise, eq_comm] using h⟩
  · rename_i hc
    exact .inl ⟨h, by omega⟩

/-! ### The stack -/

/-- What a push that answers a next state has done. -/
theorem State.push_next {w : Word} {k : State → Result} (h : s.push w k = .next t) :
    (k (s.pushed w) = .next t ∧ s.sp.toNat + 2 ≤ s.params.stackLimit.toNat ∧ s.sp.toNat + 2 ≤ memSize) ∨
      ∃ r, t = s.raised r := by
  unfold State.push at h
  split at h
  · exact .inr ⟨_, by simpa [State.raise, eq_comm] using h⟩
  · rename_i hl
    rcases State.accessing_next h with ⟨hk, hb⟩ | ⟨_, _, ht⟩
    · exact .inl ⟨hk, by omega, by omega⟩
    · exact .inr ⟨_, ht⟩

/-- A push with room below the limit and inside memory goes on. -/
theorem State.push_of_le {w : Word} {k : State → Result} (h : s.sp.toNat + 2 ≤ s.params.stackLimit.toNat)
    (hm : s.sp.toNat + 2 ≤ memSize) : s.push w k = k (s.pushed w) := by
  have : ¬s.params.stackLimit.toNat < s.sp.toNat + 2 := by omega
  simp [State.push, this, State.accessing_of_le hm]

/-- What a pop that answers a next state has done. -/
theorem State.pop_next {k : Word → State → Result} (h : s.pop k = .next t) :
    (k s.topOfStack s.popped = .next t ∧ stackBase.toNat + 2 ≤ s.sp.toNat ∧ s.sp.toNat ≤ memSize) ∨
      ∃ r, t = s.raised r := by
  unfold State.pop at h
  split at h
  · exact .inr ⟨_, by simpa [State.raise, eq_comm] using h⟩
  · rename_i hl
    rcases State.accessing_next h with ⟨hk, hb⟩ | ⟨_, _, ht⟩
    · exact .inl ⟨hk, by omega, by omega⟩
    · exact .inr ⟨_, ht⟩

/-- A pop of a frame above the base and inside memory goes on. -/
theorem State.pop_of_le {k : Word → State → Result} (h : stackBase.toNat + 2 ≤ s.sp.toNat)
    (hm : s.sp.toNat ≤ memSize) : s.pop k = k s.topOfStack s.popped := by
  have h1 : ¬s.sp.toNat < stackBase.toNat + 2 := by omega
  have h2 : s.sp.toNat - 2 + 2 ≤ memSize := by omega
  simp [State.pop, h1, State.accessing_of_le h2]

theorem State.byte_pushed (w : Word) (a : Nat) :
    (s.pushed w).byte a =
      if a = s.sp.toNat + 1 then loByte w else if a = s.sp.toNat then hiByte w else s.byte a := by
  simp [State.pushed, State.byte_setWord]

theorem State.byte_popped (a : Nat) :
    s.popped.byte a = if a = s.sp.toNat - 2 + 1 then 0 else if a = s.sp.toNat - 2 then 0 else s.byte a := by
  simp [State.popped, State.byte_setWord, hiByte, loByte]

/-! ### Result and flag -/

/-- The two writes of a flag-setting instruction leave every register but V[x] and VF alone. -/
theorem State.getV_setFlagThenResult (s : State) (x : RegIdx) (f r : Byte) (k : RegIdx) :
    (s.setFlagThenResult x f r).getV k =
      if k = x ∧ k = vf then (match s.params.vfDestOrder with | .listed => r | .flagLast => f)
      else if k = x then r else if k = vf then f else s.getV k := by
  unfold State.setFlagThenResult
  by_cases h1 : k = x
  · subst h1
    by_cases h2 : k = vf
    · subst h2; cases s.params.vfDestOrder <;> simp
    · cases s.params.vfDestOrder <;> simp [State.getV_setV, h2]
  · by_cases h2 : k = vf
    · subst h2; cases s.params.vfDestOrder <;> simp [State.getV_setV, h1]
    · cases s.params.vfDestOrder <;> simp [State.getV_setV, h1, h2]

theorem State.getV_setResultThenFlag (s : State) (x : RegIdx) (r f : Byte) (k : RegIdx) :
    (s.setResultThenFlag x r f).getV k = if k = vf then f else if k = x then r else s.getV k := by
  unfold State.setResultThenFlag
  cases s.params.vfDestOrder <;> simp only [State.getV_setV]

/-- Both orders of the two writes give a state that is `s` after two register writes. -/
theorem State.setFlagThenResult_cases (s : State) (x : RegIdx) (f r : Byte) :
    s.setFlagThenResult x f r = (s.setV vf f).setV x r ∨ s.setFlagThenResult x f r = (s.setV x r).setV vf f := by
  unfold State.setFlagThenResult
  cases s.params.vfDestOrder <;> simp

theorem State.setResultThenFlag_eq (s : State) (x : RegIdx) (r f : Byte) :
    s.setResultThenFlag x r f = (s.setV x r).setV vf f := by
  unfold State.setResultThenFlag
  cases s.params.vfDestOrder <;> rfl

/-! ### Ranges of registers and of rows -/

/-- A range of stores changes memory alone. -/
theorem State.storeRange_eq (s : State) (base n : Nat) :
    s.storeRange base n = { s with mem := (s.storeRange base n).mem } := by
  induction n with
  | zero => rfl
  | succ n ih => rw [State.storeRange, ih]; rfl

/-- The bytes after a range of stores: `V[k]` at `base + k` for k below n, every other byte as before. -/
theorem State.byte_storeRange (s : State) (base n a : Nat) :
    (s.storeRange base n).byte a = if base ≤ a ∧ a < base + n then s.getV (regAt (a - base)) else s.byte a := by
  induction n with
  | zero => simp [State.storeRange]
  | succ n ih =>
    rw [State.storeRange, State.byte_setByte, ih]
    by_cases h : a = base + n
    · subst h; simp
    · have e : (base ≤ a ∧ a < base + (n + 1)) ↔ (base ≤ a ∧ a < base + n) := by omega
      simp only [h, e, if_false]

theorem State.wf_storeRange {base : Nat} (n : Nat) (h : Mem.wf s.mem = true) (hb : base + n ≤ memSize) :
    Mem.wf (s.storeRange base n).mem = true := by
  induction n with
  | zero => exact h
  | succ n ih => exact State.wf_setByte (ih (by omega)) (by omega) _

/-- A range of loads changes the general registers and their places in WRITTEN alone. -/
theorem State.loadRange_eq (s : State) (base n : Nat) :
    s.loadRange base n =
      { s with v := (s.loadRange base n).v, written := { s.written with v := (s.loadRange base n).written.v } } := by
  induction n with
  | zero => rfl
  | succ n ih => rw [State.loadRange, ih]; rfl

theorem regAt_inj {j k : Nat} (hj : j < 16) (hk : k < 16) : regAt j = regAt k ↔ j = k := by
  simp [regAt, ← BitVec.toNat_inj, Nat.mod_eq_of_lt hj, Nat.mod_eq_of_lt hk]

theorem regAt_toNat (x : RegIdx) : regAt x.toNat = x := by simp [regAt]

/-- The registers after a range of loads: byte `base + k` in V[k] for k below n, every other register as before. -/
theorem State.getV_loadRange (s : State) (base : Nat) {n : Nat} (hn : n ≤ 16) (x : RegIdx) :
    (s.loadRange base n).getV x = if x.toNat < n then s.byte (base + x.toNat) else s.getV x := by
  induction n with
  | zero => simp [State.loadRange]
  | succ n ih =>
    rw [State.loadRange, State.getV_setV, ih (by omega)]
    by_cases h : x = regAt n
    · subst h
      have : (regAt n).toNat = n := by simp [regAt]; omega
      simp [this]
    · have hx : x.toNat ≠ n := fun e => h (by rw [← e, regAt_toNat])
      have e : x.toNat < n + 1 ↔ x.toNat < n := by omega
      simp only [h, e, if_false]

theorem State.has_loadRange (s : State) (base : Nat) {n : Nat} (hn : n ≤ 16) (x : RegIdx) :
    (s.loadRange base n).has (.v x) = (decide (x.toNat < n) || s.has (.v x)) := by
  induction n with
  | zero => simp [State.loadRange]
  | succ n ih =>
    rw [State.loadRange, State.has_setV, ih (by omega)]
    by_cases h : x = regAt n
    · subst h
      have : (regAt n).toNat = n := by simp [regAt]; omega
      simp [this]
    · have hx : x.toNat ≠ n := fun e => h (by rw [← e, regAt_toNat])
      have e : x.toNat < n + 1 ↔ x.toNat < n := by omega
      simp only [Field.v.injEq, h, e, decide_false, Bool.false_or]

theorem rowAt_inj {j k : Nat} (hj : j < 32) (hk : k < 32) : rowAt j = rowAt k ↔ j = k := by
  simp [rowAt, ← BitVec.toNat_inj, Nat.mod_eq_of_lt hj, Nat.mod_eq_of_lt hk]

theorem State.getRow_xorRow (s : State) (r : RowIdx) (p : Row) (k : RowIdx) :
    (s.xorRow r p).getRow k = if k = r then s.getRow r ^^^ p else s.getRow k := by
  unfold State.xorRow
  split <;> simp [State.getRow_setRow]

theorem State.getV_xorRow (s : State) (r : RowIdx) (p : Row) (x : RegIdx) :
    (s.xorRow r p).getV x = if x = vf ∧ s.getRow r &&& p ≠ 0 then 1 else s.getV x := by
  unfold State.xorRow
  split
  · rename_i h
    rw [if_neg (fun e => e.2 h)]; rfl
  · rename_i h
    rw [State.getV_setV]
    simp only [State.getV_setRow, ne_eq, h, not_false_eq_true, and_true]

/-- Drawing rows changes the display, VF and their places in WRITTEN alone. -/
theorem State.drawRows_eq (s : State) (base ox oy n : Nat) :
    s.drawRows base ox oy n =
      { s with
        v := (s.drawRows base ox oy n).v
        disp := (s.drawRows base ox oy n).disp
        written := { s.written with
          v := (s.drawRows base ox oy n).written.v
          disp := (s.drawRows base ox oy n).written.disp } } := by
  induction n with
  | zero => rfl
  | succ n ih =>
    rw [State.drawRows]
    unfold State.xorRow
    split <;> rw [ih] <;> rfl

/-- The display after drawing: the placed pattern XORed into each row drawn, every other row as before. -/
theorem State.getRow_drawRows (s : State) (base ox oy : Nat) {n : Nat} (hn : oy + n ≤ 32) (r : RowIdx) :
    (s.drawRows base ox oy n).getRow r =
      if oy ≤ r.toNat ∧ r.toNat < oy + n then s.getRow r ^^^ place (s.byte (base + (r.toNat - oy))) ox
      else s.getRow r := by
  induction n with
  | zero => simp [State.drawRows]
  | succ n ih =>
    rw [State.drawRows, State.getRow_xorRow, ih (by omega)]
    by_cases h : r = rowAt (oy + n)
    · have ht : r.toNat = oy + n := by subst h; simp [rowAt]; omega
      have h1 : ¬(oy ≤ r.toNat ∧ r.toNat < oy + n) := by omega
      rw [if_pos h, ← h, ih (by omega), if_neg h1, if_pos (by omega), ht]
      simp
    · have hr : r.toNat ≠ oy + n := fun e => h (by rw [← e]; simp [rowAt])
      have e : (oy ≤ r.toNat ∧ r.toNat < oy + (n + 1)) ↔ (oy ≤ r.toNat ∧ r.toNat < oy + n) := by omega
      simp only [h, e, if_false]

/-- The registers after drawing: VF is 1 if some row drawn had a lit pixel erased, every other register as before. -/
theorem State.getV_drawRows (s : State) (base ox oy : Nat) {n : Nat} (hn : oy + n ≤ 32) (x : RegIdx) :
    (s.drawRows base ox oy n).getV x =
      if x = vf ∧ ∃ k, k < n ∧ s.getRow (rowAt (oy + k)) &&& place (s.byte (base + k)) ox ≠ 0 then 1 else s.getV x := by
  induction n with
  | zero => simp [State.drawRows]
  | succ n ih =>
    have hrow : (s.drawRows base ox oy n).getRow (rowAt (oy + n)) = s.getRow (rowAt (oy + n)) := by
      have ht : (rowAt (oy + n)).toNat = oy + n := by simp [rowAt]; omega
      rw [State.getRow_drawRows s base ox oy (by omega), if_neg (by omega)]
    rw [State.drawRows, State.getV_xorRow, ih (by omega), hrow]
    by_cases hx : x = vf
    · by_cases hn' : s.getRow (rowAt (oy + n)) &&& place (s.byte (base + n)) ox ≠ 0
      · rw [if_pos ⟨hx, hn'⟩, if_pos ⟨hx, n, by omega, hn'⟩]
      · rw [if_neg (fun h => hn' h.2)]
        congr 1
        apply propext
        constructor
        · rintro ⟨h1, k, hk, h2⟩; exact ⟨h1, k, by omega, h2⟩
        · rintro ⟨h1, k, hk, h2⟩
          rcases Nat.lt_succ_iff_lt_or_eq.mp hk with hk | rfl
          · exact ⟨h1, k, hk, h2⟩
          · exact absurd h2 hn'
    · simp [hx]

theorem State.has_xorRow (s : State) (r : RowIdx) (p : Row) (f : Field) :
    (s.xorRow r p).has f =
      (decide (f = .v vf ∧ s.getRow r &&& p ≠ 0) || decide (f = .disp r) || s.has f) := by
  unfold State.xorRow
  split
  · rename_i h
    simp only [State.has_setRow, ne_eq, h, not_true_eq_false, and_false, decide_false, Bool.false_or]
  · rename_i h
    simp only [State.has_setV, State.has_setRow, ne_eq, h, not_false_eq_true, and_true, Bool.or_assoc]

/-- WRITTEN after drawing from a state in which VF is written: the rows drawn are added. -/
theorem State.has_drawRows (s : State) (base ox oy : Nat) {n : Nat} (hn : oy + n ≤ 32) (hv : s.has (.v vf) = true)
    (f : Field) :
    (s.drawRows base ox oy n).has f = true ↔
      (∃ k, k < n ∧ f = .disp (rowAt (oy + k))) ∨ s.has f = true := by
  induction n with
  | zero => simp [State.drawRows]
  | succ n ih =>
    rw [State.drawRows, State.has_xorRow]
    simp only [Bool.or_eq_true, decide_eq_true_eq, ih (by omega)]
    constructor
    · rintro ((⟨rfl, -⟩ | rfl) | ⟨k, hk, h⟩ | h)
      · exact .inr hv
      · exact .inl ⟨n, by omega, rfl⟩
      · exact .inl ⟨k, by omega, h⟩
      · exact .inr h
    · rintro (⟨k, hk, h⟩ | h)
      · rcases Nat.lt_succ_iff_lt_or_eq.mp hk with hk | rfl
        · exact .inr (.inl ⟨k, hk, h⟩)
        · exact .inl (.inr h)
      · exact .inr (.inr h)

end Sys2Proof.Machine
end

