-- ==== Sys2Proof/Laws/Exec.lean ====
section
/-! SUPPORT. What one instruction can do, said once: it raises a fault, or it leaves its normal next state inside its bounds.
Every claim about all instructions is a case split over `normal` (`exec_cases`), and every completion follows from
`exec_normal`. -/

namespace Sys2Proof.Machine

/-- The rows an `n`-row sprite at V[y] draws. -/
def spriteRows (y : RegIdx) (n : BitVec 4) (s : State) : Nat := drawnRows n (originY (s.getV y))

/-- The next state of an instruction that raises no fault. -/
def normal : Instr → State → State
  | .cls, s => s.clearRows.advance
  | .ret, s => s.popped.setPc s.topOfStack
  | .jp nnn, s => s.setPc (addr16 nnn)
  | .call nnn, s => (s.pushed (s.pc + 2)).setPc (addr16 nnn)
  | .seImm x nn, s => s.skip (decide (s.getV x = nn))
  | .sneImm x nn, s => s.skip (decide (s.getV x ≠ nn))
  | .seReg x y, s => s.skip (decide (s.getV x = s.getV y))
  | .sneReg x y, s => s.skip (decide (s.getV x ≠ s.getV y))
  | .ldImm x nn, s => (s.setV x nn).advance
  | .addImm x nn, s => (s.setV x (sumByte (s.getV x) nn)).advance
  | .ldReg x y, s => (s.setV x (s.getV y)).advance
  | .orReg x y, s => (s.setV x (s.getV x ||| s.getV y)).advance
  | .andReg x y, s => (s.setV x (s.getV x &&& s.getV y)).advance
  | .xorReg x y, s => (s.setV x (s.getV x ^^^ s.getV y)).advance
  | .addReg x y, s =>
    (s.setFlagThenResult x (carryFlag (s.getV x) (s.getV y)) (sumByte (s.getV x) (s.getV y))).advance
  | .subReg x y, s =>
    (s.setFlagThenResult x (noBorrowFlag (s.getV x) (s.getV y)) (diffByte (s.getV x) (s.getV y))).advance
  | .shr x _, s => (s.setFlagThenResult x (lowBitFlag (s.getV x)) (halfByte (s.getV x))).advance
  | .subnReg x y, s =>
    (s.setResultThenFlag x (diffByte (s.getV y) (s.getV x)) (noBorrowFlag (s.getV y) (s.getV x))).advance
  | .shl x _, s => (s.setFlagThenResult x (highBitFlag (s.getV x)) (doubleByte (s.getV x))).advance
  | .ldI nnn, s => (s.setI (addr16 nnn)).advance
  | .jpV0 nnn, s => s.setPc (wrap16 (nnn.toNat + (s.getV 0).toNat))
  | .rnd x nn, s => ((s.setV x (Config.randByte s.draws &&& nn)).countDraw).advance
  | .drw x y n, s =>
    ((s.setV vf 0).drawRows s.i.toNat (originX (s.getV x)) (originY (s.getV y)) (spriteRows y n s)).advance
  | .skp x, s => s.skip (keyEq s.params.keyNone s.key (s.getV x))
  | .sknp x, s => s.skip (!keyEq s.params.keyNone s.key (s.getV x))
  | .ldVxDt x, s => (s.setV x s.dt).advance
  | .ldVxK x, s =>
    match s.key with
    | none => s
    | some k => (s.setV x (k.setWidth 8)).advance
  | .ldDtVx x, s => (s.setDt (s.getV x)).advance
  | .ldStVx x, s => (s.setSt (s.getV x)).advance
  | .addI x, s => (s.setI (wrap16 (s.i.toNat + (s.getV x).toNat))).advance
  | .ldF x, s => (s.setI (wrap16 (fontBase + s.params.fontStride.value * (s.getV x).toNat))).advance
  | .ldB x, s => (s.setDigits s.i.toNat (s.getV x)).advance
  | .storeRegs x, s => (s.storeRange s.i.toNat (x.toNat + 1)).advance
  | .loadRegs x, s => (s.loadRange s.i.toNat (x.toNat + 1)).advance

/-- What an instruction needs besides its operands: room on the stack, addresses inside memory, a sum that fits, and display
rows that hold a value. -/
def bounds : Instr → State → Prop
  | .ret, s => stackBase.toNat + 2 ≤ s.sp.toNat ∧ s.sp.toNat ≤ memSize
  | .call _, s => s.sp.toNat + 2 ≤ s.params.stackLimit.toNat ∧ s.sp.toNat + 2 ≤ memSize
  | .drw _ y n, s =>
    (spriteRows y n s = 0 ∨ s.i.toNat + spriteRows y n s ≤ memSize) ∧
      ∀ f ∈ rowFields (originY (s.getV y)) (spriteRows y n s), s.has f = true
  | .addI x, s => s.i.toNat + (s.getV x).toNat ≤ 0xFFFF
  | .ldB _, s => s.i.toNat + 3 ≤ memSize
  | .storeRegs x, s => s.i.toNat + (x.toNat + 1) ≤ memSize
  | .loadRegs x, s => s.i.toNat + (x.toNat + 1) ≤ memSize
  | _, _ => True

variable {s t : State}

/-- Reading `fs` and then answering `k`. -/
theorem reading_cases {fs : List Field} {k : Result} (h : s.reading fs k = .next t) :
    (∃ r, t = s.raised r) ∨ (k = .next t ∧ ∀ f ∈ fs, s.has f = true) := by
  rcases State.reading_next h with h | ⟨f, _, ht⟩
  · exact .inr h
  · exact .inl ⟨_, ht⟩

/-- Touching `n` addresses and then answering `k`. -/
theorem accessing_cases {base n : Nat} {k : Result} (h : s.accessing base n k = .next t) :
    (∃ r, t = s.raised r) ∨ (k = .next t ∧ (n = 0 ∨ base + n ≤ memSize)) := by
  rcases State.accessing_next h with h | ⟨_, _, ht⟩
  · exact .inr h
  · exact .inl ⟨_, ht⟩

/-- Everything an instruction can do when it answers a next state: raise a fault, or leave its normal next state with its
operands written and inside its bounds. -/
theorem exec_cases {i : Instr} (h : exec i s = .next t) :
    (∃ r, t = s.raised r) ∨ (t = normal i s ∧ (∀ f ∈ readsOf i, s.has f = true) ∧ bounds i s) := by
  cases i with
  | cls | jp _ | ldImm _ _ | ldI _ | rnd _ _ =>
    refine .inr ⟨?_, by simp [readsOf], trivial⟩
    exact (Host.Outcome.next.inj h).symm
  | ret =>
    have h : s.pop (fun a u => .next (u.setPc a)) = .next t := h
    rcases State.pop_next h with ⟨hk, h1, h2⟩ | hr
    · exact .inr ⟨(Host.Outcome.next.inj hk).symm, by simp [readsOf], h1, h2⟩
    · exact .inl hr
  | call nnn =>
    have h : s.push (s.pc + 2) (fun u => .next (u.setPc (addr16 nnn))) = .next t := h
    rcases State.push_next h with ⟨hk, h1, h2⟩ | hr
    · exact .inr ⟨(Host.Outcome.next.inj hk).symm, by simp [readsOf], h1, h2⟩
    · exact .inl hr
  | drw x y n =>
    rcases reading_cases h with hf | ⟨h, hr⟩
    · exact .inl hf
    · rcases accessing_cases h with hf | ⟨h, hb⟩
      · exact .inl hf
      · refine (reading_cases h).imp_right fun ⟨h, hd⟩ => ⟨?_, hr, hb, hd⟩
        exact (Host.Outcome.next.inj h).symm
  | addI x =>
    rcases reading_cases h with hf | ⟨h, hr⟩
    · exact .inl hf
    · split at h
      · exact .inl ⟨_, (Host.Outcome.next.inj h).symm⟩
      · exact .inr ⟨(Host.Outcome.next.inj h).symm, hr, by simp only [bounds]; omega⟩
  | ldB x | storeRegs x | loadRegs x =>
    rcases reading_cases h with hf | ⟨h, hr⟩
    · exact .inl hf
    · rcases accessing_cases h with hf | ⟨h, hb⟩
      · exact .inl hf
      · exact .inr ⟨(Host.Outcome.next.inj h).symm, hr, by simp only [bounds]; omega⟩
  | ldVxK x =>
    refine (reading_cases h).imp_right fun ⟨h, hr⟩ => ⟨?_, hr, trivial⟩
    simp only [normal]
    cases hk : s.key with
    | none => rw [hk] at h; exact (Host.Outcome.next.inj h).symm
    | some k => rw [hk] at h; exact (Host.Outcome.next.inj h).symm
  | seImm _ _ | sneImm _ _ | seReg _ _ | sneReg _ _ | addImm _ _ | ldReg _ _ | orReg _ _ | andReg _ _ | xorReg _ _
  | addReg _ _ | subReg _ _ | shr _ _ | subnReg _ _ | shl _ _ | jpV0 _ | skp _ | sknp _ | ldVxDt _ | ldDtVx _ | ldStVx _
  | ldF _ =>
    refine (reading_cases h).imp_right fun ⟨h, hr⟩ => ⟨?_, hr, trivial⟩
    exact (Host.Outcome.next.inj h).symm

/-- An instruction whose operands are written and which is inside its bounds answers its normal next state. -/
theorem exec_normal {i : Instr} (hr : ∀ f ∈ readsOf i, s.has f = true) (hb : bounds i s) :
    exec i s = .next (normal i s) := by
  cases i with
  | cls | jp _ | ldImm _ _ | ldI _ | rnd _ _ => rfl
  | ret => exact State.pop_of_le (k := fun a u => .next (u.setPc a)) hb.1 hb.2
  | call nnn => exact State.push_of_le (k := fun u => .next (u.setPc (addr16 nnn))) hb.1 hb.2
  | drw x y n =>
    refine (State.reading_of_has hr _).trans ?_
    have h2 := State.reading_of_has hb.2 (.next (normal (.drw x y n) s))
    rcases hb.1 with h0 | hle
    · exact (congrArg (fun m => s.accessing s.i.toNat m _) h0).trans ((State.accessing_zero _ _).trans h2)
    · exact (State.accessing_of_le hle _).trans h2
  | addI x =>
    refine (State.reading_of_has hr _).trans ?_
    have : ¬0xFFFF < s.i.toNat + (s.getV x).toNat := Nat.not_lt.mpr hb
    rw [if_neg this]; rfl
  | ldB x | storeRegs x | loadRegs x =>
    exact (State.reading_of_has hr _).trans (State.accessing_of_le hb _)
  | ldVxK x =>
    refine (State.reading_of_has hr _).trans ?_
    simp only [normal]
    cases s.key <;> rfl
  | seImm _ _ | sneImm _ _ | seReg _ _ | sneReg _ _ | addImm _ _ | ldReg _ _ | orReg _ _ | andReg _ _ | xorReg _ _
  | addReg _ _ | subReg _ _ | shr _ _ | subnReg _ _ | shl _ _ | jpV0 _ | skp _ | sknp _ | ldVxDt _ | ldDtVx _ | ldStVx _
  | ldF _ => exact State.reading_of_has hr _

/-! ### Checks that always answer a state -/

/-- Every check answers a next state if what follows it does. -/
theorem reading_total {fs : List Field} {k : Result} (h : ∃ t, k = .next t) : ∃ t, s.reading fs k = .next t := by
  unfold State.reading
  split
  · exact ⟨_, rfl⟩
  · exact h

theorem accessing_total {base n : Nat} {k : Result} (h : ∃ t, k = .next t) : ∃ t, s.accessing base n k = .next t := by
  unfold State.accessing
  split
  · exact ⟨_, rfl⟩
  · exact h

end Sys2Proof.Machine
end

