-- ==== Sys2Proof/Laws/PerInstr.lean ====
section
/-! SUPPORT. Statements made for every instruction, one lemma per constructor. The family FixedBits: the word of an
instruction carries the fixed bits of its row of the opcode map (30_encoding.md R122, `w & mask = match`). -/

namespace Sys2Proof.Laws.FixedBits

open Sys2Proof.Machine

/-- The word of `i` carries the fixed bits of its row. -/
def Statement (i : Instr) : Prop := encode i &&& opcodeMask i = opcodeMatch i

/-! ### The formats under their masks -/

theorem and_ones (z : BitVec 4) : z &&& 0xF = z := BitVec.and_allOnes
theorem and_zeros {w : Nat} (z : BitVec w) : z &&& 0 = 0 := BitVec.and_zero

theorem addr_fixed (n1 : BitVec 4) (nnn : BitVec 12) :
    encodeAddr n1 nnn &&& encodeAddr 0xF 0 = encodeAddr n1 0 := by
  rw [encodeAddr_and, and_ones, and_zeros]

theorem byte_fixed (n1 x : BitVec 4) (nn : Byte) :
    encodeByte n1 x nn &&& encodeByte 0xF 0 0xFF = encodeByte n1 0 nn := by
  have h : nn &&& 0xFF = nn := BitVec.and_allOnes
  rw [encodeByte_and, and_ones, and_zeros, h]

theorem imm_fixed (n1 x : BitVec 4) (nn : Byte) : encodeByte n1 x nn &&& encodeByte 0xF 0 0 = encodeByte n1 0 0 := by
  rw [encodeByte_and, and_ones, and_zeros, and_zeros]

theorem nibbles_fixed (n1 x y n : BitVec 4) :
    encodeNibbles n1 x y n &&& encodeNibbles 0xF 0 0 0xF = encodeNibbles n1 0 0 n := by
  rw [encodeNibbles_and, and_ones, and_ones, and_zeros, and_zeros]

theorem sprite_fixed (n1 x y n : BitVec 4) :
    encodeNibbles n1 x y n &&& encodeNibbles 0xF 0 0 0 = encodeNibbles n1 0 0 0 := by
  rw [encodeNibbles_and, and_ones, and_zeros, and_zeros, and_zeros]

theorem cls : Statement .cls := rfl
theorem ret : Statement .ret := rfl
theorem jp (nnn : BitVec 12) : Statement (.jp nnn) := addr_fixed 0x1 nnn
theorem call (nnn : BitVec 12) : Statement (.call nnn) := addr_fixed 0x2 nnn
theorem seImm (x : RegIdx) (nn : Byte) : Statement (.seImm x nn) := imm_fixed 0x3 x nn
theorem sneImm (x : RegIdx) (nn : Byte) : Statement (.sneImm x nn) := imm_fixed 0x4 x nn
theorem seReg (x y : RegIdx) : Statement (.seReg x y) := nibbles_fixed 0x5 x y 0x0
theorem ldImm (x : RegIdx) (nn : Byte) : Statement (.ldImm x nn) := imm_fixed 0x6 x nn
theorem addImm (x : RegIdx) (nn : Byte) : Statement (.addImm x nn) := imm_fixed 0x7 x nn
theorem ldReg (x y : RegIdx) : Statement (.ldReg x y) := nibbles_fixed 0x8 x y 0x0
theorem orReg (x y : RegIdx) : Statement (.orReg x y) := nibbles_fixed 0x8 x y 0x1
theorem andReg (x y : RegIdx) : Statement (.andReg x y) := nibbles_fixed 0x8 x y 0x2
theorem xorReg (x y : RegIdx) : Statement (.xorReg x y) := nibbles_fixed 0x8 x y 0x3
theorem addReg (x y : RegIdx) : Statement (.addReg x y) := nibbles_fixed 0x8 x y 0x4
theorem subReg (x y : RegIdx) : Statement (.subReg x y) := nibbles_fixed 0x8 x y 0x5
theorem shr (x y : RegIdx) : Statement (.shr x y) := nibbles_fixed 0x8 x y 0x6
theorem subnReg (x y : RegIdx) : Statement (.subnReg x y) := nibbles_fixed 0x8 x y 0x7
theorem shl (x y : RegIdx) : Statement (.shl x y) := nibbles_fixed 0x8 x y 0xE
theorem sneReg (x y : RegIdx) : Statement (.sneReg x y) := nibbles_fixed 0x9 x y 0x0
theorem ldI (nnn : BitVec 12) : Statement (.ldI nnn) := addr_fixed 0xA nnn
theorem jpV0 (nnn : BitVec 12) : Statement (.jpV0 nnn) := addr_fixed 0xB nnn
theorem rnd (x : RegIdx) (nn : Byte) : Statement (.rnd x nn) := imm_fixed 0xC x nn
theorem drw (x y : RegIdx) (n : BitVec 4) : Statement (.drw x y n) := sprite_fixed 0xD x y n
theorem skp (x : RegIdx) : Statement (.skp x) := byte_fixed 0xE x 0x9E
theorem sknp (x : RegIdx) : Statement (.sknp x) := byte_fixed 0xE x 0xA1
theorem ldVxDt (x : RegIdx) : Statement (.ldVxDt x) := byte_fixed 0xF x 0x07
theorem ldVxK (x : RegIdx) : Statement (.ldVxK x) := byte_fixed 0xF x 0x0A
theorem ldDtVx (x : RegIdx) : Statement (.ldDtVx x) := byte_fixed 0xF x 0x15
theorem ldStVx (x : RegIdx) : Statement (.ldStVx x) := byte_fixed 0xF x 0x18
theorem addI (x : RegIdx) : Statement (.addI x) := byte_fixed 0xF x 0x1E
theorem ldF (x : RegIdx) : Statement (.ldF x) := byte_fixed 0xF x 0x29
theorem ldB (x : RegIdx) : Statement (.ldB x) := byte_fixed 0xF x 0x33
theorem storeRegs (x : RegIdx) : Statement (.storeRegs x) := byte_fixed 0xF x 0x55
theorem loadRegs (x : RegIdx) : Statement (.loadRegs x) := byte_fixed 0xF x 0x65

end Sys2Proof.Laws.FixedBits
end

