-- ==== Sys2Proof/Laws/Step.lean ====
section
/-! SUPPORT. What one step can do, said once (`step_cases`), and what the normal next state of an instruction keeps. -/

namespace Sys2Proof.Machine

theorem State.atEnd_iff (s : State) : s.atEnd = true ↔ s.params.endPc.value ≤ s.pc.toNat := by simp [State.atEnd]

/-- Everything a step can do: nothing on a faulted block; set EOP at the end; else advance past an `Unknown` word, raise a
fault, or leave the normal next state of the decoded instruction with its operands written and inside its bounds. -/
theorem step_cases {s t : State} (h : step s = .next t) :
    (s.fault ≠ none ∧ t = s) ∨ (s.fault = none ∧ s.atEnd = true ∧ t = s.ended) ∨
    (s.fault = none ∧ s.atEnd = false ∧
      ((s.decoded = .unknown ∧ t = s.advance) ∨ (∃ r, t = s.raised r) ∨
        ∃ i, s.decoded = .instr i ∧ t = normal i s ∧ (∀ f ∈ readsOf i, s.has f = true) ∧ bounds i s)) := by
  unfold step State.cycle at h
  cases hf : s.fault with
  | some f => left; simp [hf] at h; exact ⟨by simp, h.symm⟩
  | none =>
    right
    simp only [hf, Option.isSome_none, Bool.false_eq_true, if_false] at h
    cases ha : s.atEnd with
    | true => left; simp [ha] at h; exact ⟨rfl, rfl, h.symm⟩
    | false =>
      right
      refine ⟨rfl, rfl, ?_⟩
      simp only [ha, Bool.false_eq_true, if_false] at h
      cases hd : s.decoded with
      | unknown => simp only [hd] at h; exact .inl ⟨rfl, (Host.Outcome.next.inj h).symm⟩
      | unspecified => simp only [hd] at h; exact .inr (.inl ⟨_, (Host.Outcome.next.inj h).symm⟩)
      | instr i =>
        simp only [hd] at h
        rcases exec_cases h with hr | hr
        · exact .inr (.inl hr)
        · exact .inr (.inr ⟨i, rfl, hr⟩)

/-- No instruction writes the parameters, EOP or KEY, and none but by a fault FAULT. -/
theorem normal_fields (i : Instr) (s : State) :
    (normal i s).params = s.params ∧ (normal i s).eop = s.eop ∧ (normal i s).fault = s.fault ∧
      (normal i s).key = s.key := by
  cases i <;> simp only [normal]
  case addReg x y | subReg x y | shr x y | shl x y =>
    rcases State.setFlagThenResult_cases s x _ _ with h | h <;> rw [h] <;> simp [State.advance_eq]
  case subnReg x y => rw [State.setResultThenFlag_eq]; simp [State.advance_eq]
  case drw x y n => rw [State.advance_eq, State.drawRows_eq]; simp
  case storeRegs x => rw [State.advance_eq, State.storeRange_eq]; simp
  case loadRegs x => rw [State.advance_eq, State.loadRange_eq]; simp
  case ldVxK x => split <;> simp_all [State.advance_eq]
  case ret => simp [State.popped, State.setWord_eq]
  case call => simp [State.pushed, State.setWord_eq]
  all_goals simp [State.advance_eq, State.skip_eq, State.setDigits]

/-- An instruction that does not write memory leaves it as data. -/
theorem normal_mem (i : Instr) (s : State) (h : writesMem i = false) : (normal i s).mem = s.mem := by
  cases i <;> simp only [normal] <;> simp only [writesMem, Bool.true_eq_false] at h
  case addReg x y | subReg x y | shr x y | shl x y =>
    rcases State.setFlagThenResult_cases s x _ _ with h | h <;> rw [h] <;> simp [State.advance_eq]
  case subnReg x y => rw [State.setResultThenFlag_eq]; simp [State.advance_eq]
  case drw x y n => rw [State.advance_eq, State.drawRows_eq]; simp
  case loadRegs x => rw [State.advance_eq, State.loadRange_eq]; simp
  case ldVxK x => split <;> simp_all [State.advance_eq]
  all_goals simp [State.advance_eq, State.skip_eq]

/-- An instruction that does not write SP leaves it. -/
theorem normal_sp (i : Instr) (s : State) (h : writesSp i = false) : (normal i s).sp = s.sp := by
  cases i <;> simp only [normal] <;> simp only [writesSp, Bool.true_eq_false] at h
  case addReg x y | subReg x y | shr x y | shl x y =>
    rcases State.setFlagThenResult_cases s x _ _ with h | h <;> rw [h] <;> simp [State.advance_eq]
  case subnReg x y => rw [State.setResultThenFlag_eq]; simp [State.advance_eq]
  case drw x y n => rw [State.advance_eq, State.drawRows_eq]; simp
  case loadRegs x => rw [State.advance_eq, State.loadRange_eq]; simp
  case storeRegs x => rw [State.advance_eq, State.storeRange_eq]; simp
  case ldVxK x => split <;> simp_all [State.advance_eq]
  all_goals simp [State.advance_eq, State.skip_eq, State.setDigits]

/-- No instruction removes a field from WRITTEN. -/
theorem normal_has (i : Instr) (s : State) {f : Field} (h : s.has f = true) : (normal i s).has f = true := by
  cases i <;> simp only [normal]
  case cls => cases f <;> simp_all [State.advance_eq]
  case addReg x y | subReg x y | shr x y | shl x y =>
    rcases State.setFlagThenResult_cases s x _ _ with e | e <;> rw [e] <;> simp [State.advance_eq, h]
  case subnReg x y => rw [State.setResultThenFlag_eq]; simp [State.advance_eq, h]
  case drw x y n =>
    rw [State.advance_eq, State.has_setPc, State.has_drawRows _ _ _ _ _ (by simp)]
    · simp [h]
    · simp only [spriteRows, drawnRows, originY]; omega
  case storeRegs x => rw [State.advance_eq, State.storeRange_eq]; exact h
  case loadRegs x =>
    rw [State.advance_eq, State.has_setPc]
    cases f with
    | v z => rw [State.has_loadRange _ _ (show x.toNat + 1 ≤ 16 from x.isLt), h, Bool.or_true]
    | _ => rw [State.loadRange_eq]; exact h
  case ldVxK x => split <;> simp_all [State.advance_eq]
  case ret => simp [State.popped, State.setWord_eq, h]
  case call => simp [State.pushed, State.setWord_eq, h]
  all_goals simp [State.advance_eq, State.skip_eq, State.setDigits, h]

/-- An instruction inside its bounds keeps the canonical form of memory. -/
theorem wf_normal {i : Instr} {s : State} (hb : bounds i s) (h : Mem.wf s.mem = true) :
    Mem.wf (normal i s).mem = true := by
  by_cases hw : writesMem i = false
  · rw [normal_mem i s hw]; exact h
  cases i <;> simp only [writesMem, not_true_eq_false, not_false_eq_true, Bool.true_eq_false] at hw
  case ret =>
    obtain ⟨h1, h2⟩ := hb
    have : stackBase.toNat = 82 := rfl
    exact State.wf_setWord h (show s.sp.toNat - 2 + 1 < memSize by omega) _
  case call =>
    obtain ⟨h1, h2⟩ := hb
    exact State.wf_setWord h (by omega) _
  case ldB =>
    have hb : s.i.toNat + 3 ≤ memSize := hb
    exact State.wf_setByte (State.wf_setByte (State.wf_setByte h (by omega) _) (by omega) _) (by omega) _
  case storeRegs x => exact State.wf_storeRange _ h hb

end Sys2Proof.Machine
end

