-- ==== Sys2Proof/Tests/Slice0.lean ====
section
/-! SUPPORT. The model's own tests: the decoding of a word of every row of the opcode map written out from its pattern
(30_encoding.md R122), the well-formedness smoke tests, and single steps whose expected results are the vectors of
95_test_vectors.md (named V<n> or S<n> in each comment). -/

namespace Sys2Proof.Tests

open Sys2Proof.Machine

/-! ### Well-formedness: each check refuses an ill-formed term -/

theorem test_jpV0_ill_formed_under_refuse : Instr.wellFormed .refuse (.jpV0 0x300) = false := by decide
theorem test_jpV0_ill_formed_under_noop : Instr.wellFormed .unknownNoop (.jpV0 0x300) = false := by decide
theorem test_jpV0_well_formed_under_jump : Instr.wellFormed .jumpV0 (.jpV0 0x300) = true := by decide
theorem test_odd_limit_ill_formed : Params.wellFormed { specParams with stackLimit := 0x201 } = false := by decide
theorem test_low_limit_ill_formed : Params.wellFormed { specParams with stackLimit := 0x052 } = false := by decide
theorem test_high_limit_ill_formed : Params.wellFormed { specParams with stackLimit := 0x1002 } = false := by decide
theorem test_key_code_ill_formed : Params.wellFormed { specParams with keyNone := .code 15 } = false := by decide
theorem test_boot_params_well_formed : Params.wellFormed bootParams = true := by decide

/-! ### Decoding: a word of each row, written out from its pattern -/

theorem test_decode_cls : decode .refuse 0b0000_0000_1110_0000 = .instr .cls := by decide
theorem test_decode_ret : decode .refuse 0b0000_0000_1110_1110 = .instr .ret := by decide
theorem test_decode_jp : decode .refuse 0b0001_0010_0010_1000 = .instr (.jp 0x228) := by decide
theorem test_decode_call : decode .refuse 0b0010_0010_0001_0000 = .instr (.call 0x210) := by decide
theorem test_decode_seImm : decode .refuse 0b0011_0011_0010_1010 = .instr (.seImm 3 0x2A) := by decide
theorem test_decode_sneImm : decode .refuse 0b0100_0011_0010_1011 = .instr (.sneImm 3 0x2B) := by decide
theorem test_decode_seReg : decode .refuse 0b0101_0001_0010_0000 = .instr (.seReg 1 2) := by decide
theorem test_decode_ldImm : decode .refuse 0b0110_1010_0100_0010 = .instr (.ldImm 10 0x42) := by decide
theorem test_decode_addImm : decode .refuse 0b0111_0000_0000_0011 = .instr (.addImm 0 3) := by decide
theorem test_decode_ldReg : decode .refuse 0b1000_0000_0001_0000 = .instr (.ldReg 0 1) := by decide
theorem test_decode_orReg : decode .refuse 0b1000_0010_0001_0001 = .instr (.orReg 2 1) := by decide
theorem test_decode_andReg : decode .refuse 0b1000_0010_0001_0010 = .instr (.andReg 2 1) := by decide
theorem test_decode_xorReg : decode .refuse 0b1000_0010_0001_0011 = .instr (.xorReg 2 1) := by decide
theorem test_decode_addReg : decode .refuse 0b1000_0010_0001_0100 = .instr (.addReg 2 1) := by decide
theorem test_decode_subReg : decode .refuse 0b1000_0010_0001_0101 = .instr (.subReg 2 1) := by decide
theorem test_decode_shr : decode .refuse 0b1000_0010_0001_0110 = .instr (.shr 2 1) := by decide
theorem test_decode_subnReg : decode .refuse 0b1000_0010_0001_0111 = .instr (.subnReg 2 1) := by decide
theorem test_decode_shl : decode .refuse 0b1000_0010_0001_1110 = .instr (.shl 2 1) := by decide
theorem test_decode_sneReg : decode .refuse 0b1001_0001_0010_0000 = .instr (.sneReg 1 2) := by decide
theorem test_decode_ldI : decode .refuse 0b1010_0011_0000_0000 = .instr (.ldI 0x300) := by decide
theorem test_decode_jpV0 : decode .jumpV0 0b1011_0010_0000_0000 = .instr (.jpV0 0x200) := by decide
theorem test_decode_rnd : decode .refuse 0b1100_0000_0000_1111 = .instr (.rnd 0 0x0F) := by decide
theorem test_decode_drw : decode .refuse 0b1101_0001_0010_0101 = .instr (.drw 1 2 5) := by decide
theorem test_decode_skp : decode .refuse 0b1110_0111_1001_1110 = .instr (.skp 7) := by decide
theorem test_decode_sknp : decode .refuse 0b1110_0111_1010_0001 = .instr (.sknp 7) := by decide
theorem test_decode_ldVxDt : decode .refuse 0b1111_0011_0000_0111 = .instr (.ldVxDt 3) := by decide
theorem test_decode_ldVxK : decode .refuse 0b1111_0010_0000_1010 = .instr (.ldVxK 2) := by decide
theorem test_decode_ldDtVx : decode .refuse 0b1111_0101_0001_0101 = .instr (.ldDtVx 5) := by decide
theorem test_decode_ldStVx : decode .refuse 0b1111_0001_0001_1000 = .instr (.ldStVx 1) := by decide
theorem test_decode_addI : decode .refuse 0b1111_0010_0001_1110 = .instr (.addI 2) := by decide
theorem test_decode_ldF : decode .refuse 0b1111_0010_0010_1001 = .instr (.ldF 2) := by decide
theorem test_decode_ldB : decode .refuse 0b1111_1010_0011_0011 = .instr (.ldB 10) := by decide
theorem test_decode_storeRegs : decode .refuse 0b1111_0010_0101_0101 = .instr (.storeRegs 2) := by decide
theorem test_decode_loadRegs : decode .refuse 0b1111_0010_0110_0101 = .instr (.loadRegs 2) := by decide

/-- V9: 01E0 is not CLS. -/
theorem test_decode_unknown_family0 : decode .refuse 0x01E0 = .unknown := by decide
theorem test_decode_unknown_family8 : decode .refuse 0x8008 = .unknown := by decide
theorem test_decode_unknown_familyE : decode .refuse 0xE000 = .unknown := by decide
theorem test_decode_unknown_familyF : decode .refuse 0xF000 = .unknown := by decide
theorem test_decode_unspecified_family5 : decode .refuse 0x5011 = .unspecified := by decide
theorem test_decode_unspecified_family9 : decode .refuse 0x912F = .unspecified := by decide
theorem test_decode_familyB_refuse : decode .refuse 0xB200 = .unspecified := by decide
theorem test_decode_familyB_noop : decode .unknownNoop 0xB200 = .unknown := by decide
theorem test_decode_truncated : decodeBytes .refuse [0x60] = .error .truncated := by decide
theorem test_table_word : decodeTableWord 16 0x8214 = some (.addReg 2 1) := by decide
theorem test_table_word_jpV0 : decodeTableWord 16 0xB000 = some (.jpV0 0) := by decide
theorem test_encode_sprite : encode (.drw 1 2 5) = 0xD125 := by decide

/-! ### One step -/

/-- What `f` reads from the next state of an answer. -/
def read {α : Type} (r : Result) (f : State → α) : Option α :=
  match r with
  | .next t => some (f t)
  | .fault _ => none
  | .refused _ => none

/-- The boot machine with PC at 0x300 (95_test_vectors.md section 2), all tracked fields written. -/
def base : State := State.reset.setPc 0x300

/-- The spec's own default parameters, all tracked fields written. -/
def specBase : State := { base with params := specParams }

/-- One step of `s` with the word `w` at PC. -/
def run (s : State) (w : Word) : Result := step (s.placeWord w)

/-- V1: a step at PC = 0xFFF sets EOP. -/
theorem test_end : read (step (base.setPc 0xFFF)) (fun t => (t.eop, t.pc)) = some (true, 0xFFF) := by decide
/-- V3: the word at 0xFFE is executed and EOP stays false. -/
theorem test_last_slot : read (run (base.setPc 0xFFE) 0x00E0) (fun t => (t.eop, t.pc)) = some (false, 0x1000) := by decide
/-- V5: a faulted block does nothing. -/
theorem test_faulted : read (run (base.raised (.stackOverflow 0)) 0x6001) (fun t => (t.getV 0, t.pc)) = some (0, 0x300) := by decide
/-- V6: an `Unknown` word advances PC and emits the diagnostic. -/
theorem test_unknown : read (run base 0x8008) (fun t => (t.pc, t.fault)) = some (0x302, none) := by decide
theorem test_unknown_diag : (base.placeWord 0x8008).stepDiag = some { pc := 0x300, word := 0x8008 } := by decide
/-- V12: an `Unspecified` word faults. -/
theorem test_unspecified :
    read (run base 0x5011) (fun t => (t.pc, t.fault)) =
      some (0x300, some { reason := .unspecifiedOpcode 0x5011, pc := 0x300, word := 0x5011 }) := by decide
/-- V14 under `BNNN_MODE = refuse`. -/
theorem test_bnnn_refuse :
    read (run specBase 0xB200) (fun t => t.fault) =
      some (some { reason := .unspecifiedOpcode 0xB200, pc := 0x300, word := 0xB200 }) := by decide
/-- V14 under `BNNN_MODE = jump_v0`. -/
theorem test_bnnn_jump : read (run (base.setV 0 5) 0xB200) (fun t => t.pc) = some 0x205 := by decide
/-- V15: an odd PC. -/
theorem test_odd_pc : read (run (base.setPc 0x301) 0x6007) (fun t => (t.getV 0, t.pc)) = some (7, 0x303) := by decide
/-- V16: a read of an unwritten register faults. -/
theorem test_unwritten_v :
    read (run { base with written := .none } 0x7001) (fun t => (t.has (.v 0), t.fault)) =
      some (false, some { reason := .unwrittenRead (.v 0), pc := 0x300, word := 0x7001 }) := by decide
/-- V17: a write adds the register to WRITTEN. -/
theorem test_write_marks : read (run { base with written := .none } 0x6001) (fun t => (t.getV 0, t.has (.v 0), t.has (.v 1))) =
    some (1, true, false) := by decide
/-- V19: DRW reads the display rows it draws. -/
theorem test_unwritten_row :
    read (run (((({ base with written := .none }.setV 0 0).setV 1 0).setI 0x300)) 0xD011) (fun t => t.fault.map (·.reason)) =
      some (some (.unwrittenRead (.disp 0))) := by decide
/-- V157: the bound check comes before the row reads. -/
theorem test_bound_before_rows :
    read (run (((({ base with written := .none }.setV 0 0).setV 1 0).setI 0xFFF)) 0xD012) (fun t => t.fault.map (·.reason)) =
      some (some (.memOutOfRange 0x1000)) := by decide
/-- V156: operands are read before the bound check. -/
theorem test_operand_first :
    read (run ({ base with written := .none }.setI 0xFFE) 0xF033) (fun t => t.fault.map (·.reason)) =
      some (some (.unwrittenRead (.v 0))) := by decide

/-- V20. -/
theorem test_jp : read (run base 0x1228) (fun t => t.pc) = some 0x228 := by decide
/-- V24: the last legal push, big-endian. -/
theorem test_call : read (run (base.setSp 0x1FE) 0x2400) (fun t => (t.byte 0x1FE, t.byte 0x1FF, t.sp, t.pc)) =
    some (3, 2, 0x200, 0x400) := by decide
/-- V25. -/
theorem test_call_overflow : read (run (base.setSp 0x200) 0x2400) (fun t => (t.pc, t.fault.map (·.reason))) =
    some (0x300, some (.stackOverflow 0x200)) := by decide
/-- V26. -/
theorem test_ret : read (run (((base.setSp 0x054).setByte 0x52 2).setByte 0x53 2) 0x00EE)
    (fun t => (t.pc, t.sp, t.byte 0x52, t.byte 0x53)) = some (0x202, 0x052, 0, 0) := by decide
/-- V27. -/
theorem test_ret_underflow : read (run base 0x00EE) (fun t => (t.sp, t.fault.map (·.reason))) =
    some (0x052, some (.stackUnderflow 0x052)) := by decide
/-- V29, V30. -/
theorem test_se_taken : read (run (base.setV 3 0x2A) 0x332A) (fun t => t.pc) = some 0x304 := by decide
theorem test_se_not_taken : read (run (base.setV 3 0x2A) 0x332B) (fun t => t.pc) = some 0x302 := by decide
/-- V31, V32. -/
theorem test_sne_not_taken : read (run (base.setV 3 0x2A) 0x432A) (fun t => t.pc) = some 0x302 := by decide
theorem test_sne_taken : read (run (base.setV 3 0x2A) 0x432B) (fun t => t.pc) = some 0x304 := by decide
/-- V33, V34. -/
theorem test_seReg_taken : read (run ((base.setV 1 7).setV 2 7) 0x5120) (fun t => t.pc) = some 0x304 := by decide
theorem test_seReg_not_taken : read (run ((base.setV 1 7).setV 2 8) 0x5120) (fun t => t.pc) = some 0x302 := by decide
/-- V36, V37. -/
theorem test_sneReg_taken : read (run ((base.setV 1 7).setV 2 8) 0x9120) (fun t => t.pc) = some 0x304 := by decide
theorem test_sneReg_same : read (run (base.setV 1 7) 0x9110) (fun t => t.pc) = some 0x302 := by decide

/-- V40. -/
theorem test_ldImm : read (run base 0x6A42) (fun t => t.getV 10) = some 0x42 := by decide
/-- V41: no flag on a wrap. -/
theorem test_addImm_wraps : read (run ((base.setV 0 0xFF).setV 15 7) 0x7001) (fun t => (t.getV 0, t.getV 15)) = some (0, 7) := by decide
/-- V42. -/
theorem test_ldReg : read (run (base.setV 1 0x3C) 0x8010) (fun t => t.getV 0) = some 0x3C := by decide
/-- V43. -/
theorem test_or : read (run (((base.setV 0 0xF0).setV 1 0x0C).setV 15 7) 0x8011) (fun t => (t.getV 0, t.getV 15)) = some (0xFC, 7) := by decide
/-- V44. -/
theorem test_and : read (run ((base.setV 0 0xF0).setV 1 0x3C) 0x8012) (fun t => t.getV 0) = some 0x30 := by decide
/-- V45. -/
theorem test_xor : read (run ((base.setV 0 0xF0).setV 1 0x3C) 0x8013) (fun t => t.getV 0) = some 0xCC := by decide
/-- V47. -/
theorem test_add_carry : read (run ((base.setV 0 0xFF).setV 1 1) 0x8014) (fun t => (t.getV 0, t.getV 15)) = some (0, 1) := by decide
/-- V63: VF as the destination, both orders. -/
theorem test_add_vf_listed : read (run ((base.setV 15 0xFF).setV 1 1) 0x8F14) (fun t => t.getV 15) = some 0 := by decide
theorem test_add_vf_flag_last :
    read (run ((({ base with params := { bootParams with vfDestOrder := .flagLast } }.setV 15 0xFF).setV 1 1)) 0x8F14)
      (fun t => t.getV 15) = some 1 := by decide
/-- V52. -/
theorem test_sub_borrow : read (run ((base.setV 0 3).setV 1 5) 0x8015) (fun t => (t.getV 0, t.getV 15)) = some (0xFE, 0) := by decide
/-- V70: VF as the second operand. -/
theorem test_sub_vf_operand : read (run ((base.setV 0 3).setV 15 5) 0x80F5) (fun t => (t.getV 0, t.getV 15)) = some (0xFE, 0) := by decide
/-- V57. -/
theorem test_shr : read (run ((base.setV 0 5).setV 1 0x99) 0x8016) (fun t => (t.getV 0, t.getV 15)) = some (2, 1) := by decide
/-- V54. -/
theorem test_subn : read (run ((base.setV 0 3).setV 1 5) 0x8017) (fun t => (t.getV 0, t.getV 15)) = some (2, 1) := by decide
/-- V66: VF as the destination of SUBN ends with the flag. -/
theorem test_subn_vf : read (run ((base.setV 15 3).setV 1 5) 0x8F17) (fun t => t.getV 15) = some 1 := by decide
/-- V60, V61. -/
theorem test_shl_out : read (run (base.setV 0 0x81) 0x800E) (fun t => (t.getV 0, t.getV 15)) = some (2, 1) := by decide
theorem test_shl_keep : read (run (base.setV 0 0x40) 0x800E) (fun t => (t.getV 0, t.getV 15)) = some (0x80, 0) := by decide
/-- Cxnn advances and takes one draw; V73 gives the value for nn = 0, which no free byte can change. -/
theorem test_rnd_advances : read (run base 0xC00F) (fun t => (t.pc, t.draws)) = some (0x302, 1) := by decide

/-- V80. -/
theorem test_ldI : read (run base 0xA300) (fun t => t.i) = some 0x300 := by decide
/-- V82, V84. -/
theorem test_addI_above : read (run ((base.setI 0xFFF).setV 0 1) 0xF01E) (fun t => (t.i, t.fault)) = some (0x1000, none) := by decide
theorem test_addI_wrap : read (run ((base.setI 0xFFFF).setV 0 1) 0xF01E) (fun t => (t.i, t.fault.map (·.reason))) =
    some (0xFFFF, some (.indexWrap 0xFFFF)) := by decide
/-- V86, V89. -/
theorem test_ldF : read (run (base.setV 2 0x0A) 0xF229) (fun t => t.i) = some 0x082 := by decide
theorem test_ldF_unmasked : read (run (base.setV 0 0xFF) 0xF029) (fun t => t.i) = some 0x54B := by decide
/-- V94, V96. -/
theorem test_bcd : read (run ((base.setI 0x300).setV 0 0xEA |>.setPc 0x400) 0xF033) (fun t => (t.byte 0x300, t.byte 0x301, t.byte 0x302)) =
    some (2, 3, 4) := by decide
theorem test_bcd_out : read (run (base.setI 0xFFE) 0xF033) (fun t => (t.byte 0xFFE, t.fault.map (·.reason))) =
    some (0, some (.memOutOfRange 0x1000)) := by decide
/-- V98. -/
theorem test_store : read (run ((((base.setPc 0x400).setI 0x300).setV 0 1 |>.setV 1 2).setV 2 3) 0xF255)
    (fun t => (t.byte 0x300, t.byte 0x301, t.byte 0x302, t.i)) = some (1, 2, 3, 0x300) := by decide
/-- V101. -/
theorem test_store_out : read (run (base.setI 0xFF1) 0xFF55) (fun t => t.fault.map (·.reason)) =
    some (some (.memOutOfRange 0x1000)) := by decide
/-- V102. -/
theorem test_load : read (run ((((base.setPc 0x400).setI 0x300).setByte 0x300 2 |>.setByte 0x301 3).setByte 0x302 4) 0xF265)
    (fun t => (t.getV 0, t.getV 1, t.getV 2, t.i)) = some (2, 3, 4, 0x300) := by decide
/-- V103. -/
theorem test_load_out : read (run ((base.setI 0xFFF).setV 0 9) 0xF165) (fun t => (t.getV 0, t.fault.map (·.reason))) =
    some (9, some (.memOutOfRange 0x1000)) := by decide

/-- V112. -/
theorem test_place_clips : place 0xF0 62 = 0x0000000000000003 := by decide
/-- V115: collision. -/
theorem test_drw_collision :
    read (run ((((base.setPc 0x400).setI 0x300).setByte 0x300 0x80).setRow 0 0x8000000000000000) 0xD011)
      (fun t => (t.getRow 0, t.getV 15)) = some (0, 1) := by decide
/-- V118: clipped right and bottom. -/
theorem test_drw_clipped :
    read (run (((((base.setPc 0x400).setI 0x300).setByte 0x300 0xF0 |>.setByte 0x301 0x90).setByte 0x302 0xFF |>.setV 0 0x3C).setV 1 0x1E) 0xD013)
      (fun t => (t.getRow 30, t.getRow 31, t.getRow 0, t.getV 15)) = some (0xF, 0x9, 0, 0) := by decide
/-- V122: x = F uses VF before it is reset. -/
theorem test_drw_vf_origin :
    read (run ((((base.setPc 0x400).setI 0x300).setByte 0x300 0x80).setV 15 5) 0xDF01)
      (fun t => (t.getRow 0, t.getV 15)) = some (0x0400000000000000, 0) := by decide
/-- V119: bytes of clipped rows are not read. -/
theorem test_drw_clipped_byte : read (run ((base.setI 0xFFF).setV 1 0x1F) 0xD012) (fun t => t.fault) = some none := by decide
/-- V123. -/
theorem test_cls : read (run ((base.setRow 3 0xFF).setV 15 7) 0x00E0) (fun t => (t.getRow 3, t.getV 15)) = some (0, 7) := by decide

/-- V130, V133. -/
theorem test_skp : read (run ((base.setKey (some 5)).setV 0 5) 0xE09E) (fun t => t.pc) = some 0x304 := by decide
theorem test_skp_none_16 : read (run (base.setV 0 16) 0xE09E) (fun t => t.pc) = some 0x304 := by decide
/-- V134, V135. -/
theorem test_sknp : read (run (base.setV 0 3) 0xE0A1) (fun t => t.pc) = some 0x304 := by decide
theorem test_sknp_equal : read (run ((base.setKey (some 5)).setV 0 5) 0xE0A1) (fun t => t.pc) = some 0x302 := by decide
/-- V137, V138. -/
theorem test_wait : read (run base 0xF20A) (fun t => (t.pc, t.getV 2)) = some (0x300, 0) := by decide
theorem test_key : read (run (base.setKey (some 0xC)) 0xF20A) (fun t => (t.pc, t.getV 2, t.key)) = some (0x302, 0x0C, some 0xC) := by decide
/-- V139. -/
theorem test_ldVxDt : read (run (base.setDt 0x3C) 0xF307) (fun t => t.getV 3) = some 0x3C := by decide
/-- V140. -/
theorem test_ldDtVx : read (run (base.setV 0 5) 0xF015) (fun t => t.dt) = some 5 := by decide
/-- V141. -/
theorem test_ldStVx : read (run (base.setV 1 2) 0xF118) (fun t => (t.st, t.isSoundActive)) = some (2, some true) := by decide

/-! ### Host transactions -/

/-- V142, V144. -/
theorem test_tick : ((base.setDt 1).setSt 0).tickTimers.dt = 0 ∧ ((base.setDt 1).setSt 0).tickTimers.st = 0 := by decide
theorem test_tick_after_end : { base with eop := true, dt := 5 }.tickTimers.dt = 4 := by decide
/-- V145. -/
theorem test_tick_faulted : ((base.setDt 5).raised (.stackOverflow 0)).tickTimers.dt = 5 := by decide
/-- V146, V147. -/
theorem test_press : ((base.setKey (some 3)).setKeyPressed 9).key = some 9 := by decide
theorem test_release : (base.setKey (some 3)).setKeyReleased.key = none := by decide
/-- V152, and a two-byte load (R352). -/
theorem test_load_empty : base.loadProgram [] = base ∧ loadResult [] = .ok := by decide
theorem test_load_bytes : (base.loadProgram [0x60, 0x05]).byte 0x201 = 0x05 := by decide
/-- R354, R316: the moves the model does not have are refused by name. -/
theorem test_second_load_refused :
    Session.run [.loadProgram [0x60], .loadProgram [0x60]] (Session.start base) = .refused .loadNotAdmitted := by rfl
theorem test_key_16_refused : Session.run [.setKeyPressed 16] (Session.start base) = .refused (.keyCodeAbove15 16) := by rfl
/-- V153: the font is in memory at reset (glyph 0 and glyph F). -/
theorem test_font : State.reset.byte 0x050 = 0xF0 ∧ State.reset.byte 0x09F = 0x80 ∧ State.reset.byte 0x0A0 = 0 := by decide
/-- The 80 bytes of the font. -/
theorem test_font_length : fontTable.length = 80 := by decide
/-- The first step after reset runs the placed word. -/
theorem test_first_step : read (step (State.reset.withFetchWord 16 0x6A42)) (fun t => (t.getV 10, t.pc)) = some (0x42, 0x202) := by decide

/-! ### Witnesses: states and operands that meet the hypotheses of each statement, at the boundary of each clause -/

/-- Nothing written but what `f` writes. -/
def bare : State := { base with written := .none }

theorem witness_DecodeUndoesEncode :
    Instr.wellFormed .refuse (.drw 1 2 5) = true ∧ Instr.wellFormed .jumpV0 (.jpV0 0xFFF) = true := by decide
theorem witness_EncodeUndoesDecode : decode .jumpV0 0xB200 = .instr (.jpV0 0x200) := by decide
theorem witness_DecoderFollowsOpcodeMap :
    decode .refuse 0xD125 = .instr (.drw 1 2 5) ∧
      (Instr.wellFormed .refuse (.sknp 7) = true ∧ 0xE7A1 &&& opcodeMask (.sknp 7) = opcodeMatch (.sknp 7)) := by decide
theorem witness_StepRunsDecodedInstruction :
    (base.placeWord 0x6A42).fault = none ∧ (base.placeWord 0x6A42).pc.toNat < (base.placeWord 0x6A42).params.endPc.value ∧
      decode (base.placeWord 0x6A42).params.bnnnMode ((base.placeWord 0x6A42).byte 0x300 ++ (base.placeWord 0x6A42).byte 0x301) =
        .instr (.ldImm 10 0x42) := by decide
theorem witness_FaultedBlockNeverMoves :
    (base.raised (.stackOverflow 0)).fault = some { reason := .stackOverflow 0, pc := 0x300, word := 0 } := by decide
/-- The spec's parameters under the open alternative of `END_PC`. -/
def lastSlotBase : State := { base.setPc 0xFFE with params := { specParams with endPc := .lastSlot } }

/-- Both thresholds, at the first PC that ends the program. -/
theorem witness_StepAtEndOnlySetsEop :
    ((base.setPc 0xFFF).fault = none ∧ (base.setPc 0xFFF).params.endPc = .memTop ∧ 0xFFF ≤ (base.setPc 0xFFF).pc.toNat) ∧
      (lastSlotBase.fault = none ∧ lastSlotBase.params.endPc = .lastSlot ∧ 0xFFE ≤ lastSlotBase.pc.toNat) := by
  decide
theorem witness_UnknownWordOnlyAdvances :
    (base.placeWord 0x8008).fault = none ∧ (base.placeWord 0x8008).pc.toNat < (base.placeWord 0x8008).params.endPc.value ∧
      decode (base.placeWord 0x8008).params.bnnnMode ((base.placeWord 0x8008).byte 0x300 ++ (base.placeWord 0x8008).byte 0x301) =
        .unknown := by decide
theorem witness_UnspecifiedWordFaults :
    (base.placeWord 0x5011).fault = none ∧ (base.placeWord 0x5011).pc.toNat < (base.placeWord 0x5011).params.endPc.value ∧
      decode (base.placeWord 0x5011).params.bnnnMode ((base.placeWord 0x5011).byte 0x300 ++ (base.placeWord 0x5011).byte 0x301) =
        .unspecified := by decide

/-- The spec's default parameters in its default mode, and a parameter choice, a font and a launch memory of other values. -/
theorem witness_ResetMeetsInvariant :
    (Params.wellFormed specParams = true ∧ fontTable.length = 80 ∧ Mem.wf cleanLaunch.mem = true) ∧
      (Params.wellFormed { specParams with stackLimit := 0x1000, keyNone := .unequal } = true ∧
        (List.replicate 80 (0 : Byte)).length = 80 ∧
        Mem.wf { cleanLaunch with mem := [(0x000, 1), (0xFFF, 2)] }.mem = true) := by decide
theorem base_inv : base.Inv := by constructor <;> decide
theorem ended_inv : { base.setPc 0xFFF with eop := true }.Inv := by constructor <;> decide
theorem faulted_inv : (base.raised (.stackOverflow 0)).Inv := by
  refine ⟨by decide, by decide, by decide, by decide, by decide, by decide, ?_⟩
  rintro f ⟨⟩
  decide
/-- Running, ended and faulted states meet the invariant and step. -/
theorem witness_StepKeepsInvariant :
    (base.Inv ∧ step base = .next base.advance) ∧
      ({ base.setPc 0xFFF with eop := true }.Inv ∧
        step { base.setPc 0xFFF with eop := true } = .next { base.setPc 0xFFF with eop := true }) ∧
      ((base.raised (.stackOverflow 0)).Inv ∧ step (base.raised (.stackOverflow 0)) = .next (base.raised (.stackOverflow 0))) :=
  ⟨⟨base_inv, by rfl⟩, ⟨ended_inv, by rfl⟩, ⟨faulted_inv, by rfl⟩⟩
theorem witness_SchedulesKeepInvariant :
    (Session.start base).Inv ∧
      Session.run [.loadProgram [], .tickTimers, .setKeyPressed 15, .step] (Session.start base) =
        .next { state := (base.setKey (some 15)).advance, loadable := false } :=
  ⟨⟨base_inv, fun _ => rfl⟩, by rfl⟩
theorem witness_FaultsArePrecise :
    (base.placeWord 0x5011).fault = none ∧
      ∃ t, step (base.placeWord 0x5011) = .next t ∧ t.fault ≠ none :=
  ⟨by decide, _, rfl, by decide⟩
theorem witness_EopMarksTheEnd :
    step (base.setPc 0xFFF) = .next { base.setPc 0xFFF with eop := true } ∧
      ({ base.setPc 0xFFF with eop := true }.Inv ∧ { base.setPc 0xFFF with eop := true }.eop = true) :=
  ⟨by rfl, ended_inv, rfl⟩
/-- DisplayAndMemoryWriters, RegisterWritersAreTheListed and SpecialRegisterWriters: an instruction outside each list of
writers. -/
theorem witness_Writers :
    exec (.ldImm 3 7) base = .next (base.setV 3 7).advance ∧ writesDisp (.ldImm 3 7) = false ∧
      writesMem (.ldImm 3 7) = false ∧ writesI (.ldImm 3 7) = false ∧ writesSp (.ldImm 3 7) = false ∧
      4 ∉ writesV (.ldImm 3 7) :=
  ⟨rfl, rfl, rfl, rfl, rfl, by decide⟩
/-- The clause of SpecialRegisterWriters about WRITTEN, for an instruction that writes the register it reads. -/
theorem witness_WrittenIsKept :
    exec (.addImm 1 1) (bare.setV 1 5) = .next ((bare.setV 1 5).setV 1 6).advance ∧
      step ((bare.setV 1 5).placeWord 0x7101) = .next (((bare.setV 1 5).placeWord 0x7101).setV 1 6).advance ∧
      (bare.setV 1 5).has (.v 1) = true ∧ ((bare.setV 1 5).placeWord 0x7101).has (.v 1) = true := ⟨rfl, rfl, rfl, rfl⟩
theorem witness_UnwrittenOperandFaults :
    (readsOf (.drw 1 2 5)).find? (fun g => !(bare.setV 1 0).has g) = some (.v 2) := by decide
/-- Both cases of the statement about ST. -/
theorem witness_SoundTimerIsNeverRead :
    exec (.ldVxDt 3) base = .next (base.setV 3 0).advance ∧
      (exec (.ldStVx 3) base = .next (base.setSt 0).advance ∧ base.has (.v 3) = true) :=
  ⟨rfl, rfl, rfl⟩
theorem witness_UnwrittenValuesAreNeverSeen :
    AgreeOnWritten bare { bare with i := 0x300, dt := 9, st := 8, key := some 7 } ∧ step bare = .next bare.advance :=
  ⟨by constructor <;> first | rfl | decide | (intro f; cases f <;> rfl), by rfl⟩
theorem witness_CanonicalMemoryIsItsBytes :
    Mem.wf [(0x200, 1), (0x300, 2)] = true ∧ ∀ a, Mem.read [(0x200, 1), (0x300, 2)] a = Mem.read [(0x200, 1), (0x300, 2)] a :=
  ⟨by decide, fun _ => rfl⟩

/-- The operands of AddImmWrapsWithoutFlag, LdRegCopies, LogicIsBitwise, AddRegSumAndCarry, SubRegDifferenceAndNoBorrow,
SubnRegDifferenceAndNoBorrow, ShiftsByOnePlace, SkipsOnImmediate, SkipsOnRegister, JpV0AddsV0 and LdFPointsAtGlyph: only V1
and V2 written, VF as x, or V0 alone. -/
theorem witness_RegisterOperands :
    (((bare.setV 1 0xFF).setV 2 1).has (.v 1) = true ∧ ((bare.setV 1 0xFF).setV 2 1).has (.v 2) = true) ∧
      (((bare.setV 15 0xFF).setV 2 1).has (.v 15) = true ∧ ((bare.setV 15 0xFF).setV 2 1).has (.v 2) = true) ∧
      (bare.setV 0 1).has (.v 0) = true ∧ bare.has (.v 0) = false := by decide
theorem witness_RndMasksADrawnByte : (0x0F : Byte).getLsbD 7 = false := by decide
/-- The lowest frame and the highest. -/
theorem witness_RetPopsIntoPc :
    (0x054 ≤ (base.setSp 0x054).sp.toNat ∧ (base.setSp 0x054).sp.toNat ≤ 0x1000) ∧
      (0x054 ≤ (base.setSp 0x1000).sp.toNat ∧ (base.setSp 0x1000).sp.toNat ≤ 0x1000) := by decide
theorem witness_CallPushesReturnAddress :
    (base.setSp 0x1FE).sp.toNat + 2 ≤ (base.setSp 0x1FE).params.stackLimit.toNat ∧ (base.setSp 0x1FE).sp.toNat + 2 ≤ 0x1000 := by
  decide
theorem witness_StackFaultsWriteNothing :
    (base.setSp 0x200).params.stackLimit.toNat < (base.setSp 0x200).sp.toNat + 2 ∧ (base.setSp 0x052).sp.toNat < 0x054 := by
  decide
theorem witness_ReturnUndoesCall :
    (0x052 ≤ (base.setSp 0x052).sp.toNat ∧ (base.setSp 0x052).sp.toNat + 2 ≤ base.params.stackLimit.toNat ∧
        (base.setSp 0x052).sp.toNat + 2 ≤ 0x1000) ∧
      (0x052 ≤ (base.setSp 0x1FE).sp.toNat ∧ (base.setSp 0x1FE).sp.toNat + 2 ≤ base.params.stackLimit.toNat ∧
        (base.setSp 0x1FE).sp.toNat + 2 ≤ 0x1000) := by decide
/-- The largest sum that fits and the smallest that does not. -/
theorem witness_AddIAddsOrFaults :
    (((bare.setI 0xFFFE).setV 1 1).has .i = true ∧ ((bare.setI 0xFFFE).setV 1 1).has (.v 1) = true ∧
        ((bare.setI 0xFFFE).setV 1 1).i.toNat + (((bare.setI 0xFFFE).setV 1 1).getV 1).toNat ≤ 0xFFFF) ∧
      (((bare.setI 0xFFFF).setV 1 1).has .i = true ∧ ((bare.setI 0xFFFF).setV 1 1).has (.v 1) = true ∧
        0xFFFF < ((bare.setI 0xFFFF).setV 1 1).i.toNat + (((bare.setI 0xFFFF).setV 1 1).getV 1).toNat) := by decide
theorem witness_LdBStoresDigits :
    ((bare.setI 0xFFD).setV 1 255).has (.v 1) = true ∧ ((bare.setI 0xFFD).setV 1 255).has .i = true ∧
      ((bare.setI 0xFFD).setV 1 255).i.toNat + 2 ≤ 0xFFF := by decide
/-- StoreRegsCopiesOut, LoadRegsCopiesIn and StoreThenLoadRestoresRegisters: the last address that fits, for all sixteen
registers. -/
theorem witness_RegisterRangeFits :
    (base.setI 0xFF0).has .i = true ∧ (∀ k : RegIdx, k.toNat ≤ (15 : RegIdx).toNat → (base.setI 0xFF0).has (.v k) = true) ∧
      (base.setI 0xFF0).i.toNat + (15 : RegIdx).toNat ≤ 0xFFF := by decide
/-- The first address that does not fit, for each of the four instructions. -/
theorem witness_AccessBeyondMemoryFaults :
    ((base.setI 0xFFE).has (.v 1) = true ∧ (base.setI 0xFFE).has .i = true ∧ 0xFFF < (base.setI 0xFFE).i.toNat + 2) ∧
      ((base.setI 0xFF1).has .i = true ∧
        (∀ k : RegIdx, k.toNat ≤ (15 : RegIdx).toNat → (base.setI 0xFF1).has (.v k) = true) ∧
        0xFFF < (base.setI 0xFF1).i.toNat + (15 : RegIdx).toNat) ∧
      ((base.setI 0x1000).has .i = true ∧ 0xFFF < (base.setI 0x1000).i.toNat + (0 : RegIdx).toNat) ∧
      ((base.setI 0xFF2).has (.v 1) = true ∧ (base.setI 0xFF2).has (.v 2) = true ∧ (base.setI 0xFF2).has .i = true ∧
        0 < min (15 : BitVec 4).toNat (32 - ((base.setI 0xFF2).getV 2).toNat % 32) ∧
        0x1000 < (base.setI 0xFF2).i.toNat + min (15 : BitVec 4).toNat (32 - ((base.setI 0xFF2).getV 2).toNat % 32)) := by
  decide
theorem witness_PlaceShiftsAndClips : 63 < 64 ∧ 0 < 64 := by decide
/-- Fifteen rows that end at 0xFFF, and a sprite of which row 31 alone is drawn. -/
theorem witness_DrwXorsAndReportsCollision :
    ((base.setI 0xFF1).has (.v 1) = true ∧ (base.setI 0xFF1).has (.v 2) = true ∧ (base.setI 0xFF1).has .i = true ∧
        15 = min (15 : BitVec 4).toNat (32 - ((base.setI 0xFF1).getV 2).toNat % 32) ∧ (base.setI 0xFF1).i.toNat + 15 ≤ 0x1000 ∧
        ∀ k, k < 15 → (base.setI 0xFF1).has (.disp (BitVec.ofNat 5 k)) = true) ∧
      (((base.setI 0xFFF).setV 2 31).has (.v 1) = true ∧ ((base.setI 0xFFF).setV 2 31).has (.v 2) = true ∧
        ((base.setI 0xFFF).setV 2 31).has .i = true ∧
        1 = min (15 : BitVec 4).toNat (32 - (((base.setI 0xFFF).setV 2 31).getV 2).toNat % 32) ∧
        ((base.setI 0xFFF).setV 2 31).i.toNat + 1 ≤ 0x1000 ∧
        ((base.setI 0xFFF).setV 2 31).has (.disp (BitVec.ofNat 5 31)) = true) := by decide
theorem witness_DrawTwiceRestoresDisplay :
    (1 : RegIdx) ≠ 15 ∧ (2 : RegIdx) ≠ 15 ∧ base.has (.v 1) = true ∧ base.has (.v 2) = true ∧ base.has .i = true ∧
      (∀ r, base.has (.disp r) = true) ∧
      base.i.toNat + min (15 : BitVec 4).toNat (32 - (base.getV 2).toNat % 32) ≤ 0x1000 := by decide
/-- DrwXorsAndReportsCollision and DrawTwiceRestoresDisplay with no row to draw and I above memory. -/
theorem witness_DrawOfNoRows :
    (base.setI 0xFFFF).has (.v 1) = true ∧ (base.setI 0xFFFF).has (.v 2) = true ∧ (base.setI 0xFFFF).has .i = true ∧
      min (0 : BitVec 4).toNat (32 - ((base.setI 0xFFFF).getV 2).toNat % 32) = 0 ∧
      0x1000 < (base.setI 0xFFFF).i.toNat ∧ ∀ r, (base.setI 0xFFFF).has (.disp r) = true := by decide
/-- A sprite at the origin with display row 0 written and row 1 not. -/
def oneRow : State := (((bare.setV 1 0).setV 2 0).setI 0xFFE).setRow 0 0

theorem witness_UnwrittenRowFaults :
    0 = (oneRow.getV 2).toNat % 32 ∧ 2 = min (2 : BitVec 4).toNat (32 - 0) ∧ oneRow.has (.v 1) = true ∧
      oneRow.has (.v 2) = true ∧ oneRow.has .i = true ∧ oneRow.i.toNat + 2 ≤ 0x1000 ∧ 1 < 2 ∧
      (∀ j, j < 1 → oneRow.has (.disp (BitVec.ofNat 5 (0 + j))) = true) ∧
      oneRow.has (.disp (BitVec.ofNat 5 (0 + 1))) = false := by decide
/-- A pressed key, no key with the code that means none, and no key with another. -/
theorem witness_SkipsOnKey :
    (((bare.setKey (some 15)).setV 1 15).has .key = true ∧ ((bare.setKey (some 15)).setV 1 15).has (.v 1) = true ∧
        (15 : BitVec 4).toNat = (((bare.setKey (some 15)).setV 1 15).getV 1).toNat) ∧
      (((bare.setKey none).setV 1 16).has .key = true ∧
        ((bare.setKey none).setV 1 16).params.keyNone = .code (((bare.setKey none).setV 1 16).getV 1)) ∧
      ¬((bare.setKey none).setV 1 17).params.keyNone = .code (((bare.setKey none).setV 1 17).getV 1) := by decide
theorem witness_WaitForKeyReexecutes :
    ((bare.setKey (some 15)).has .key = true ∧ (bare.setKey (some 15)).key = some 15) ∧
      ((bare.setKey none).has .key = true ∧ (bare.setKey none).key = none) := by decide
theorem witness_TimersAreCopied : (bare.setDt 255).has .dt = true ∧ (bare.setV 3 255).has (.v 3) = true := by decide
theorem witness_HostInputsChangeTheirFields : base.fault = none := by decide
/-- A load that is a move and one that is not, a step with a diagnostic, the last key code that is a move and the first that
is not. -/
theorem witness_OutputsAndRefusedMoves :
    (Session.start base).loadable = true ∧ { Session.start base with loadable := false }.loadable = false ∧
      (step (Session.start (base.placeWord 0x8008)).state = .next (base.placeWord 0x8008).advance ∧
        (base.placeWord 0x8008).stepDiag = some { pc := 0x300, word := 0x8008 }) ∧
      (15 : BitVec 4).toNat = 15 ∧ 15 < 16 ∧
      (Session.start base).transact .tickTimers = .next (Session.start base, .nothing) :=
  ⟨rfl, rfl, ⟨rfl, rfl⟩, rfl, by decide, rfl⟩
/-- The largest ROM that fits and the smallest that does not. -/
theorem witness_LoadProgramCopiesVerbatim :
    (List.replicate 3583 (0x60 : Byte)).length ≤ 3583 ∧ 3584 ≤ (List.replicate 3584 (0x60 : Byte)).length :=
  ⟨List.length_replicate.le, List.length_replicate.ge⟩
theorem witness_InitLeavesLaunchState :
    fontTable.length = 80 ∧ (List.replicate 80 (0 : Byte)).length = 80 := by decide

end Sys2Proof.Tests
end

section
/-! The scope of the machine (00_scope.md R17): every move answers a state, and a fault is only recorded. -/

namespace Sys2Proof.Machine

variable {s : State}

/-! ### Totality -/

/-- A push answers a next state if what follows it does. -/
theorem State.push_total {w : Word} {k : State → Result} (h : ∃ t, k (s.pushed w) = .next t) :
    ∃ t, s.push w k = .next t := by
  unfold State.push
  split
  · exact ⟨_, rfl⟩
  · exact accessing_total h

/-- A pop answers a next state if what follows it does. -/
theorem State.pop_total {k : Word → State → Result} (h : ∃ t, k s.topOfStack s.popped = .next t) :
    ∃ t, s.pop k = .next t := by
  unfold State.pop
  split
  · exact ⟨_, rfl⟩
  · exact accessing_total h

/-- Each instruction is a chain of checks before one write, and every check answers a state. -/
theorem exec_total (i : Instr) (s : State) : ∃ t, exec i s = .next t := by
  cases i with
  | cls | jp _ | ldImm _ _ | ldI _ | rnd _ _ => exact ⟨_, rfl⟩
  | ret => exact State.pop_total (k := fun a u => .next (u.setPc a)) ⟨_, rfl⟩
  | call nnn => exact State.push_total (k := fun u => .next (u.setPc (addr16 nnn))) ⟨_, rfl⟩
  | drw _ _ _ => exact reading_total (accessing_total (reading_total ⟨_, rfl⟩))
  | ldB _ | storeRegs _ | loadRegs _ => exact reading_total (accessing_total ⟨_, rfl⟩)
  | addI _ =>
    refine reading_total ?_
    split
    · exact ⟨_, rfl⟩
    · exact ⟨_, rfl⟩
  | ldVxK _ =>
    refine reading_total ?_
    split
    · exact ⟨_, rfl⟩
    · exact ⟨_, rfl⟩
  | seImm _ _ | sneImm _ _ | seReg _ _ | sneReg _ _ | addImm _ _ | ldReg _ _ | orReg _ _ | andReg _ _ | xorReg _ _
  | addReg _ _ | subReg _ _ | shr _ _ | subnReg _ _ | shl _ _ | jpV0 _ | skp _ | sknp _ | ldVxDt _ | ldDtVx _ | ldStVx _
  | ldF _ => exact reading_total ⟨_, rfl⟩

/-- A step answers a state: the checks before `exec` do, and so does the instruction they let through. -/
theorem step_total (s : State) : ∃ t, step s = .next t := by
  unfold step
  split
  · exact ⟨_, rfl⟩
  · exact exec_total _ s

/-! ### Precise faults -/

theorem faultsWith_raised (r : Fault) (s : State) : FaultsWith r s (s.raised r) := rfl

/-- The way a step of an unfaulted state comes to a FAULT: of all it can do (`step_cases`), only raising sets it. -/
theorem step_raised_of_fault {t : State} (hs : s.fault = none) (h : step s = .next t) (ht : t.fault ≠ none) :
    ∃ r, t = s.raised r := by
  rcases step_cases h with ⟨hf, -⟩ | ⟨-, -, rfl⟩ | ⟨-, -, ⟨-, rfl⟩ | hr | ⟨i, -, rfl, -, -⟩⟩
  · exact absurd hs hf
  · exact absurd hs ht
  · exact absurd hs ht
  · exact hr
  · obtain ⟨-, -, hfault, -⟩ := normal_fields i s
    exact absurd (hfault.trans hs) ht

end Sys2Proof.Machine

open Sys2Proof.Machine

/-- Settles O11: the two totality lemmas, over the instructions and over the checks of a step. -/
theorem everyStepAnswersAState : Obligations.EveryStepAnswersAState :=
  ⟨exec_total, step_total⟩

/-- Settles O15: a FAULT that was not there before was raised by this step, and raising only records. -/
theorem faultsArePrecise : Obligations.FaultsArePrecise := by
  intro s t hs h ht
  obtain ⟨r, rfl⟩ := step_raised_of_fault hs h ht
  exact ⟨r, faultsWith_raised r s⟩
end

section
/-! The invariant of the machine (10_state.md R39, R44, R51): initialisation meets it and every step keeps it. -/

namespace Sys2Proof.Machine

variable {s t : State}

/-! ### The parts of the invariant -/

/-- In a running state below END_PC that meets the invariant EOP is false. -/
theorem State.Inv.eop_false (h : s.Inv) (ha : s.atEnd = false) : s.eop = false := by
  cases he : s.eop with
  | false => rfl
  | true => rw [h.eop he] at ha; cases ha

/-- SP lies where 20_memory.md R93 wants it, as far as the parameters of `s` say. -/
structure State.SpOk (s : State) : Prop where
  even : s.sp.toNat % 2 = 0
  low  : stackBase.toNat ≤ s.sp.toNat
  high : s.sp.toNat ≤ s.params.stackLimit.toNat

theorem State.Inv.spOk (h : s.Inv) : s.SpOk := ⟨h.spEven, h.spLow, h.spHigh⟩

theorem State.SpOk.of_eq (h : s.SpOk) (hp : t.params = s.params) (hsp : t.sp = s.sp) : t.SpOk :=
  ⟨hsp ▸ h.even, hsp ▸ h.low, hsp ▸ hp ▸ h.high⟩

/-- Two more, where a push has room below STACK_LIMIT. -/
theorem State.SpOk.pushed (h : s.SpOk) (w : Word) (hl : s.sp.toNat + 2 ≤ s.params.stackLimit.toNat) :
    (s.pushed w).SpOk := by
  obtain ⟨he, hlow, -⟩ := h
  have hlim := s.params.stackLimit.isLt
  have hsp : (s.sp + 2).toNat = s.sp.toNat + 2 := by bv_omega
  exact ⟨show (s.sp + 2).toNat % 2 = 0 by omega, show stackBase.toNat ≤ (s.sp + 2).toNat by omega,
    show (s.sp + 2).toNat ≤ s.params.stackLimit.toNat by omega⟩

/-- Two less, where a pop has a frame above STACK_BASE. -/
theorem State.SpOk.popped (h : s.SpOk) (hl : stackBase.toNat + 2 ≤ s.sp.toNat) : s.popped.SpOk := by
  obtain ⟨he, -, hhigh⟩ := h
  have hsp : (s.sp - 2).toNat = s.sp.toNat - 2 := by bv_omega
  exact ⟨show (s.sp - 2).toNat % 2 = 0 by omega, show stackBase.toNat ≤ (s.sp - 2).toNat by omega,
    show (s.sp - 2).toNat ≤ s.params.stackLimit.toNat by omega⟩

/-- An instruction inside its bounds keeps SP where it belongs: only 2nnn and 00EE move it. -/
theorem spOk_normal {i : Instr} (hb : bounds i s) (h : s.SpOk) : (normal i s).SpOk := by
  cases hw : writesSp i with
  | false => exact h.of_eq (normal_fields i s).1 (normal_sp i s hw)
  | true =>
    cases i <;> simp only [writesSp, Bool.false_eq_true] at hw
    case ret => exact (h.popped hb.1).of_eq rfl rfl
    case call => exact (h.pushed (s.pc + 2) hb.1).of_eq rfl rfl

/-! ### The ways a step answers a state -/

/-- Setting EOP where it is set changes nothing. -/
theorem State.ended_of_eop (h : s.eop = true) : s.ended = s := by
  unfold State.ended
  rw [← h]

/-- A next state with EOP false and FAULT none meets the invariant as soon as memory, parameters and SP do. -/
theorem State.Inv.of_running (hm : Mem.wf t.mem = true) (hp : t.params.wellFormed = true) (hsp : t.SpOk)
    (he : t.eop = false) (hf : t.fault = none) : t.Inv where
  mem := hm
  params := hp
  spEven := hsp.even
  spLow := hsp.low
  spHigh := hsp.high
  eop h := by rw [he] at h; cases h
  fault f h := by rw [hf] at h; cases h

theorem State.Inv.ended (h : s.Inv) (hf : s.fault = none) (ha : s.atEnd = true) : s.ended.Inv :=
  { h with
    eop := fun _ => ha
    fault := fun f hf' => by rw [State.ended_fault, hf] at hf'; cases hf' }

theorem State.Inv.raised (h : s.Inv) (ha : s.atEnd = false) (r : Fault) : (s.raised r).Inv :=
  { h with
    fault := fun f hf => by
      cases hf
      exact ⟨rfl, rfl, ha⟩ }

theorem State.Inv.advance (h : s.Inv) (hf : s.fault = none) (ha : s.atEnd = false) : s.advance.Inv :=
  .of_running h.mem h.params (h.spOk.of_eq rfl rfl) (h.eop_false ha) hf

theorem State.Inv.normal {i : Instr} (h : s.Inv) (hf : s.fault = none) (ha : s.atEnd = false) (hb : bounds i s) :
    (normal i s).Inv := by
  obtain ⟨hparams, heop, hfault, -⟩ := normal_fields i s
  exact .of_running (wf_normal hb h.mem) (hparams ▸ h.params) (spOk_normal hb h.spOk)
    (heop.trans (h.eop_false ha)) (hfault.trans hf)

end Sys2Proof.Machine

open Sys2Proof.Machine

/-- Settles O13: each of the ways a step answers a state (`step_cases`) keeps the invariant. -/
theorem stepKeepsInvariant : Obligations.StepKeepsInvariant := by
  intro s t hs h
  rcases step_cases h with ⟨-, rfl⟩ | ⟨hf, ha, rfl⟩ | ⟨hf, ha, ⟨-, rfl⟩ | ⟨r, rfl⟩ | ⟨i, -, rfl, -, hb⟩⟩
  · exact hs
  · exact hs.ended hf ha
  · exact hs.advance hf ha
  · exact hs.raised ha r
  · exact hs.normal hf ha hb

/-- Settles O16: of all a step can do (`step_cases`) only the step at the end changes EOP, and there a second one sets
again what is set. -/
theorem eopMarksTheEnd : Obligations.EopMarksTheEnd := by
  refine ⟨fun s t h => ?_, fun s hs he => ?_⟩
  · rw [← State.atEnd_iff]
    rcases step_cases h with ⟨hf, rfl⟩ | ⟨hf, ha, rfl⟩ | ⟨-, ha, ⟨-, rfl⟩ | ⟨r, rfl⟩ | ⟨i, -, rfl, -, -⟩⟩
    · simp [hf]
    · simp [hf, ha]
    · simp [State.advance_eq, ha]
    · simp [ha]
    · obtain ⟨-, heop, -, -⟩ := normal_fields i s
      simp [heop, ha]
  · have ha : s.atEnd = true := hs.eop he
    obtain ⟨t, h⟩ := step_total s
    rcases step_cases h with ⟨-, rfl⟩ | ⟨-, -, rfl⟩ | ⟨-, hrun, -⟩
    · exact h
    · exact h.trans (congrArg Host.Outcome.next (State.ended_of_eop he))
    · exact absurd ha (by simp [hrun])
end

section
/-! Memory as its bytes (10_state.md R31), and the state that initialisation leaves (10_state.md R49, R51;
70_reset_and_hazards.md R350, R356). -/

namespace Sys2Proof.Machine

/-! ### The cells of a canonical memory are the bytes that differ from the unlisted one -/

theorem Mem.read_of_notMem {m : List Host.Cell} {a : Nat} (h : ∀ c ∈ m, c.1 ≠ a) : Mem.read m a = Mem.unlisted a := by
  induction m with
  | nil => rfl
  | cons c m ih =>
    rw [Mem.read, if_neg (h c (List.mem_cons_self ..))]
    exact ih fun d hd => h d (List.mem_cons_of_mem _ hd)

/-- At strictly rising addresses no cell hides another, so each is read. -/
theorem Mem.read_of_mem {m : List Host.Cell} {c : Host.Cell} (hp : m.Pairwise fun c d => c.1 < d.1) (hc : c ∈ m) :
    Mem.read m c.1 = c.2 := by
  induction m with
  | nil => cases hc
  | cons d m ih =>
    obtain ⟨hd, hp⟩ := List.pairwise_cons.mp hp
    rcases List.mem_cons.mp hc with rfl | hc
    · simp [Mem.read]
    · rw [Mem.read, if_neg (hd c hc).ne]
      exact ih hp hc

theorem Mem.mem_iff_read {m : List Host.Cell} (h : Mem.wf m = true) (c : Host.Cell) :
    c ∈ m ↔ Mem.read m c.1 = c.2 ∧ c.2 ≠ Mem.unlisted c.1 := by
  obtain ⟨hp, hcells⟩ := (Mem.wf_iff m).mp h
  constructor
  · exact fun hc => ⟨Mem.read_of_mem hp hc, (hcells c hc).2⟩
  · rintro ⟨hr, hne⟩
    by_cases hex : ∃ d ∈ m, d.1 = c.1
    · obtain ⟨d, hd, hdc⟩ := hex
      have hval : d.2 = c.2 := by rw [← hr, ← hdc, Mem.read_of_mem hp hd]
      exact Prod.ext hdc hval ▸ hd
    · push Not at hex
      exact absurd (hr.symm.trans (Mem.read_of_notMem hex)) hne

theorem Mem.eq_of_read_eq {m n : List Host.Cell} (hm : Mem.wf m = true) (hn : Mem.wf n = true)
    (hread : ∀ a, Mem.read m a = Mem.read n a) : m = n := by
  obtain ⟨hpm, -⟩ := (Mem.wf_iff m).mp hm
  obtain ⟨hpn, -⟩ := (Mem.wf_iff n).mp hn
  have hmem : ∀ c, c ∈ m ↔ c ∈ n := fun c => by rw [Mem.mem_iff_read hm, Mem.mem_iff_read hn, hread]
  have hperm : m.Perm n :=
    (List.perm_ext_iff_of_nodup (hpm.imp fun h e => h.ne (congrArg Prod.fst e))
      (hpn.imp fun h e => h.ne (congrArg Prod.fst e))).mpr hmem
  exact hperm.eq_of_pairwise (fun c d _ _ hcd hdc => absurd hcd hdc.asymm) hpm hpn

/-- The default font is what the unlisted addresses read as, so writing it into an empty memory leaves no cell. -/
theorem Mem.writeAll_fontTable : Mem.writeAll fontBase fontTable [] = [] := by
  refine Mem.eq_of_read_eq (Mem.wf_writeAll fontTable rfl (by decide)) rfl fun a => ?_
  rw [Mem.read_writeAll]
  by_cases h : fontBase ≤ a ∧ a < fontBase + 80
  · exact (if_pos h).trans (if_pos h).symm
  · exact if_neg h

/-! ### Initialisation -/

variable (p : Params) (mode : UnwrittenRead) (font : List Byte) (l : Launch)

/-- The font stands at 0x050, and every other byte is the launch input's. -/
theorem byte_init (a : Nat) :
    (init p mode font l).byte a =
      if fontBase ≤ a ∧ a < fontBase + font.length then font.getD (a - fontBase) 0 else Mem.read l.mem a :=
  Mem.read_writeAll font fontBase l.mem a

theorem has_init (f : Field) : (init p mode font l).has f = decide (mode = .launchValue) := by
  cases mode <;> cases f <;> simp [State.has, init, writtenAtInit, Written.none, Written.all]

theorem init_cleanLaunch : init bootParams bootUnwrittenRead fontTable cleanLaunch = State.reset := by
  simp only [init, cleanLaunch, Mem.writeAll_fontTable]
  rfl

theorem cleanLaunch_reset : CleanLaunch 0 State.reset := by
  refine ⟨fun x => ?_, rfl, rfl, rfl, fun r => ?_, rfl, fun f => ?_, fun a ha _ => ?_⟩
  · simp [State.getV, State.reset]
  · simp [State.getRow, State.reset]
  · rw [← init_cleanLaunch, has_init]; rfl
  · exact if_neg ha

variable {p} {font} {l}

theorem inv_init (hp : p.wellFormed = true) (hfont : font.length = 80) (hl : Mem.wf l.mem = true) :
    (init p mode font l).Inv := by
  have hlimit : 0x054 ≤ p.stackLimit.toNat := by
    simp only [Params.wellFormed, Bool.and_eq_true, decide_eq_true_eq] at hp
    obtain ⟨⟨⟨-, hlow⟩, -⟩, -⟩ := hp
    exact hlow
  have hsp : (init p mode font l).sp.toNat = 0x052 := rfl
  refine ⟨Mem.wf_writeAll font hl (by rw [hfont]; decide), hp, by rw [hsp], hsp.ge, ?_, ?_, ?_⟩
  · show 0x052 ≤ p.stackLimit.toNat
    omega
  · exact fun h => absurd h Bool.false_ne_true
  · exact fun f h => nomatch h

end Sys2Proof.Machine

open Sys2Proof.Machine

/-- Settles O23: the cells are determined by the bytes, and their order by their addresses. -/
theorem canonicalMemoryIsItsBytes : Obligations.CanonicalMemoryIsItsBytes :=
  fun _ _ => Mem.eq_of_read_eq

/-- Settles O60: the bytes after `init` are read off its writes of the font, and reset is `init` of CleanLaunch. -/
theorem initLeavesLaunchState : Obligations.InitLeavesLaunchState := by
  refine ⟨?_, init_cleanLaunch, cleanLaunch_reset⟩
  rintro p mode font l _ hfont rfl
  refine ⟨rfl, rfl, rfl, rfl, rfl, fun k hk => ?_, fun a ha => ?_, rfl, rfl, rfl, rfl, rfl, rfl, has_init p mode font l⟩
  · rw [byte_init, if_pos (by simp only [fontBase]; omega)]
    simp [fontBase, hfont, hk]
  · rw [byte_init, if_neg (by simp only [fontBase]; omega)]

/-- Settles O12: `init` meets each part of the invariant, and reset is one such `init`. -/
theorem resetMeetsInvariant : Obligations.ResetMeetsInvariant := by
  refine ⟨fun p mode font l hp hfont hl => ⟨inv_init mode hp hfont hl, rfl, rfl⟩, ?_, rfl, rfl⟩
  rw [← init_cleanLaunch]
  exact inv_init _ (by decide) (by decide) rfl
end

section
/-! What an instruction leaves unchanged among the registers (10_state.md R33 to R44, R51; 60_exceptions.md R321): a fault
writes none of them, and the normal next state writes those listed. -/

namespace Sys2Proof.Machine

variable {s t : State}

theorem State.has_drawRows_v (s : State) (base ox oy n : Nat) {x : RegIdx} (hx : x ≠ vf) :
    (s.drawRows base ox oy n).has (.v x) = s.has (.v x) := by
  induction n with
  | zero => rfl
  | succ n ih => simp [State.drawRows, State.has_xorRow, ih, hx]

theorem State.has_drawRows_of_has (s : State) (base ox oy n : Nat) {f : Field} (h : s.has f = true) :
    (s.drawRows base ox oy n).has f = true := by
  induction n with
  | zero => exact h
  | succ n ih => simp [State.drawRows, State.has_xorRow, ih]

theorem originY_add_drawnRows_le (n : BitVec 4) (b : Byte) : originY b + drawnRows n (originY b) ≤ 32 := by
  simp only [originY, drawnRows]
  omega

theorem mem_writesV_loadRegs {x k : RegIdx} : k ∈ writesV (.loadRegs x) ↔ k.toNat < x.toNat + 1 := by
  simp only [writesV, List.mem_map, List.mem_range]
  constructor
  · rintro ⟨j, hj, rfl⟩
    simp only [BitVec.toNat_ofNat]
    omega
  · exact fun hk => ⟨k.toNat, hk, regAt_toNat k⟩

/-- The general registers outside its list (10_state.md R33, R34) are as before in an instruction's normal next state. -/
theorem normal_v (i : Instr) (s : State) {x : RegIdx} (hx : x ∉ writesV i) :
    (normal i s).getV x = s.getV x ∧ (normal i s).has (.v x) = s.has (.v x) := by
  cases i <;> simp only [normal]
  case addReg a _ | subReg a _ | shr a _ | shl a _ =>
    obtain ⟨ha, hvf⟩ : x ≠ a ∧ x ≠ vf := by simpa [writesV, vf] using hx
    rcases State.setFlagThenResult_cases s a _ _ with h | h <;> rw [h] <;>
      simp [State.advance_eq, State.getV_setV, ha, hvf]
  case subnReg a _ =>
    obtain ⟨ha, hvf⟩ : x ≠ a ∧ x ≠ vf := by simpa [writesV, vf] using hx
    rw [State.setResultThenFlag_eq]
    simp [State.advance_eq, State.getV_setV, ha, hvf]
  case drw a y n =>
    have hvf : x ≠ vf := by simpa [writesV, vf] using hx
    have hrows : originY (s.getV y) + spriteRows y n s ≤ 32 := originY_add_drawnRows_le n _
    simp [State.advance_eq, State.getV_drawRows _ _ _ _ hrows, State.has_drawRows_v, State.getV_setV, hvf]
  case storeRegs a => rw [State.advance_eq, State.storeRange_eq]; exact ⟨rfl, rfl⟩
  case loadRegs a =>
    have ha : a.toNat + 1 ≤ 16 := a.isLt
    rw [mem_writesV_loadRegs] at hx
    simp [State.advance_eq, State.getV_loadRange _ _ ha, State.has_loadRange _ _ ha, hx]
  case ldVxK a =>
    have ha : x ≠ a := by simpa [writesV] using hx
    split <;> simp [State.advance_eq, State.getV_setV, ha]
  case ldImm a _ | addImm a _ | ldReg a _ | orReg a _ | andReg a _ | xorReg a _ | rnd a _ | ldVxDt a =>
    have ha : x ≠ a := by simpa [writesV] using hx
    simp [State.advance_eq, State.getV_setV, ha]
  case ret => simp [State.popped, State.setWord_eq]
  case call => simp [State.pushed, State.setWord_eq]
  all_goals simp [State.advance_eq, State.skip_eq, State.setDigits]

/-- I, DT, ST and the count of draws each have their writers (10_state.md R35, R40, R41; 60_exceptions.md R321). -/
theorem normal_special (i : Instr) (s : State) :
    (writesI i = false → (normal i s).i = s.i) ∧ ((∀ x, i ≠ .ldDtVx x) → (normal i s).dt = s.dt) ∧
      ((∀ x, i ≠ .ldStVx x) → (normal i s).st = s.st) ∧
      ((∀ x nn, i ≠ .rnd x nn) → (normal i s).draws = s.draws) := by
  cases i <;> simp only [normal]
  case addReg x _ | subReg x _ | shr x _ | shl x _ =>
    rcases State.setFlagThenResult_cases s x _ _ with h | h <;> rw [h] <;> simp [State.advance_eq]
  case subnReg => rw [State.setResultThenFlag_eq]; simp [State.advance_eq]
  case drw => rw [State.advance_eq, State.drawRows_eq]; simp
  case storeRegs => rw [State.advance_eq, State.storeRange_eq]; simp
  case loadRegs => rw [State.advance_eq, State.loadRange_eq]; simp
  case ldVxK => split <;> simp [State.advance_eq]
  case ret => simp [State.popped, State.setWord_eq]
  case call => simp [State.pushed, State.setWord_eq]
  all_goals simp [State.advance_eq, State.skip_eq, State.setDigits, writesI]

theorem exec_has {i : Instr} (h : exec i s = .next t) {f : Field} (hf : s.has f = true) : t.has f = true := by
  rcases exec_cases h with ⟨r, rfl⟩ | ⟨rfl, -, -⟩
  · simpa using hf
  · exact normal_has i s hf

theorem step_has (h : step s = .next t) {f : Field} (hf : s.has f = true) : t.has f = true := by
  rcases step_cases h with ⟨-, rfl⟩ | ⟨-, -, rfl⟩ | ⟨-, -, ⟨-, rfl⟩ | ⟨r, rfl⟩ | ⟨i, -, rfl, -, -⟩⟩
  · exact hf
  · simpa using hf
  · simpa [State.advance_eq] using hf
  · simpa using hf
  · exact normal_has i s hf

end Sys2Proof.Machine

open Sys2Proof.Machine

/-- Settles O18: a fault writes no register, and `normal_v` is the claim about the normal next state. -/
theorem registerWritersAreTheListed : Obligations.RegisterWritersAreTheListed := by
  intro i s t h x hx
  rcases exec_cases h with ⟨r, rfl⟩ | ⟨rfl, -, -⟩
  · exact ⟨rfl, rfl⟩
  · exact normal_v i s hx

/-- Settles O19: a fault writes none of these fields, and of the normal next state `normal_special`, `normal_sp`,
`normal_fields` and `normal_has` say it. -/
theorem specialRegisterWriters : Obligations.SpecialRegisterWriters := by
  refine ⟨fun i s t h => ?_, fun s t f h => step_has h⟩
  have hhas : ∀ f, s.has f = true → t.has f = true := fun f => exec_has h
  rcases exec_cases h with ⟨r, rfl⟩ | ⟨rfl, -, -⟩
  · simp
  · obtain ⟨hi, hdt, hst, hdraws⟩ := normal_special i s
    obtain ⟨hparams, heop, -, hkey⟩ := normal_fields i s
    exact ⟨hi, normal_sp i s, hdt, hst, hdraws, hkey, heop, hparams, hhas⟩
end

section
/-! The checks of an instruction as data: `faultOf` is the fault an instruction raises in a state, and `exec_eq` ties it to
`exec`. A claim about what an instruction reads is then one about `faultOf` and one about `normal`. -/

namespace Sys2Proof.Machine

/-- The fault of reading `fs` (10_state.md R51). -/
def State.unwrittenFault (s : State) (fs : List Field) : Option Fault := (s.firstUnwritten fs).map .unwrittenRead

/-- The fault of touching the `n` addresses from `base` on (20_memory.md R84). -/
def rangeFault (base n : Nat) : Option Fault :=
  if 0 < n ∧ memSize < base + n then some (.memOutOfRange (max base memSize)) else none

/-- The fault an instruction raises once its operands are read. -/
def boundsFault : Instr → State → Option Fault
  | .ret, s =>
    if s.sp.toNat < stackBase.toNat + 2 then some (.stackUnderflow s.sp) else rangeFault (s.sp.toNat - 2) 2
  | .call _, s =>
    if s.params.stackLimit.toNat < s.sp.toNat + 2 then some (.stackOverflow s.sp) else rangeFault s.sp.toNat 2
  | .drw _ y n, s =>
    (rangeFault s.i.toNat (spriteRows y n s)).or
      (s.unwrittenFault (rowFields (originY (s.getV y)) (spriteRows y n s)))
  | .addI x, s => if 0xFFFF < s.i.toNat + (s.getV x).toNat then some (.indexWrap s.i) else none
  | .ldB _, s => rangeFault s.i.toNat 3
  | .storeRegs x, s | .loadRegs x, s => rangeFault s.i.toNat (x.toNat + 1)
  | _, _ => none

/-- The fault an instruction raises, if any: its operands are read first (60_exceptions.md R309). -/
def faultOf (i : Instr) (s : State) : Option Fault := (s.unwrittenFault (readsOf i)).or (boundsFault i s)

/-- Raise the fault if there is one, else go on. -/
def State.orRaise (s : State) (f : Option Fault) (k : Result) : Result :=
  match f with
  | some r => .next (s.raised r)
  | none => k

variable {s : State}

theorem State.orRaise_or (f g : Option Fault) (k : Result) :
    s.orRaise (f.or g) k = s.orRaise f (s.orRaise g k) := by
  cases f <;> rfl

theorem State.orRaise_ite (c : Prop) [Decidable c] (r : Fault) (g : Option Fault) (k : Result) :
    s.orRaise (if c then some r else g) k = if c then s.raise r else s.orRaise g k := by
  split <;> rfl

theorem State.reading_eq (fs : List Field) (k : Result) : s.reading fs k = s.orRaise (s.unwrittenFault fs) k := by
  unfold State.reading State.unwrittenFault
  cases s.firstUnwritten fs <;> rfl

theorem State.accessing_eq (base n : Nat) (k : Result) : s.accessing base n k = s.orRaise (rangeFault base n) k :=
  (State.orRaise_ite _ _ none k).symm

/-- An instruction raises its fault, if it has one, and else answers its normal next state. -/
theorem exec_eq (i : Instr) (s : State) : exec i s = s.orRaise (faultOf i s) (.next (normal i s)) := by
  rw [faultOf, State.orRaise_or, ← State.reading_eq]
  cases i with
  | cls | jp _ | ldImm _ _ | ldI _ | rnd _ _ => rfl
  | ret | call _ =>
    rw [boundsFault, State.orRaise_ite, ← State.accessing_eq]
    rfl
  | drw _ _ _ =>
    rw [boundsFault, State.orRaise_or, ← State.reading_eq, ← State.accessing_eq]
    rfl
  | addI _ =>
    rw [boundsFault, State.orRaise_ite]
    rfl
  | ldB _ | storeRegs _ | loadRegs _ =>
    rw [boundsFault, ← State.accessing_eq]
    rfl
  | ldVxK x =>
    refine congrArg (s.reading [.key]) ?_
    simp only [boundsFault, State.orRaise, normal]
    cases s.key <;> rfl
  | seImm _ _ | sneImm _ _ | seReg _ _ | sneReg _ _ | addImm _ _ | ldReg _ _ | orReg _ _ | andReg _ _ | xorReg _ _
  | addReg _ _ | subReg _ _ | shr _ _ | subnReg _ _ | shl _ _ | jpV0 _ | skp _ | sknp _ | ldVxDt _ | ldDtVx _ | ldStVx _
  | ldF _ => rfl

theorem normal_ldVxK_none {x : RegIdx} (h : s.key = none) : normal (.ldVxK x) s = s := by
  simp [normal, h]

theorem normal_ldVxK_some {x : RegIdx} {k : BitVec 4} (h : s.key = some k) :
    normal (.ldVxK x) s = (s.setV x (k.setWidth 8)).advance := by
  simp [normal, h]

theorem exec_of_fault {i : Instr} {r : Fault} (h : faultOf i s = some r) : exec i s = .next (s.raised r) := by
  rw [exec_eq, h]
  rfl

theorem exec_of_noFault {i : Instr} (h : faultOf i s = none) : exec i s = .next (normal i s) := by
  rw [exec_eq, h]
  rfl

theorem faultOf_of_unwritten {i : Instr} {f : Field} (h : s.firstUnwritten (readsOf i) = some f) :
    faultOf i s = some (.unwrittenRead f) := by
  simp [faultOf, State.unwrittenFault, h]

theorem State.unwrittenFault_eq_none {fs : List Field} : s.unwrittenFault fs = none ↔ ∀ f ∈ fs, s.has f = true :=
  Option.map_eq_none_iff.trans State.firstUnwritten_eq_none

theorem faultOf_of_has {i : Instr} (h : ∀ f ∈ readsOf i, s.has f = true) : faultOf i s = boundsFault i s := by
  rw [faultOf, State.unwrittenFault_eq_none.mpr h, Option.none_or]

theorem rangeFault_eq_none {base n : Nat} : rangeFault base n = none ↔ n = 0 ∨ base + n ≤ memSize := by
  unfold rangeFault
  split
  next hc => simp only [reduceCtorEq, false_iff]; omega
  next hc => simp only [true_iff]; omega

theorem bounds_of_boundsFault_eq_none {i : Instr} (h : boundsFault i s = none) : bounds i s := by
  cases i with
  | ret | call _ =>
    rw [boundsFault, ite_eq_iff] at h
    simp only [reduceCtorEq, and_false, false_or, rangeFault_eq_none] at h
    simp only [bounds]
    omega
  | drw x y n =>
    rw [boundsFault, Option.or_eq_none_iff, rangeFault_eq_none, State.unwrittenFault_eq_none] at h
    exact h
  | addI x =>
    rw [boundsFault, ite_eq_iff] at h
    simp only [reduceCtorEq, and_false, false_or, and_true] at h
    exact Nat.le_of_not_lt h
  | ldB _ | storeRegs _ | loadRegs _ =>
    have h := rangeFault_eq_none.mp h
    simp only [bounds]
    omega
  | _ => trivial

/-- An instruction that raises no fault has its operands written and is inside its bounds. -/
theorem has_and_bounds_of_noFault {i : Instr} (h : faultOf i s = none) :
    (∀ f ∈ readsOf i, s.has f = true) ∧ bounds i s := by
  rw [faultOf, Option.or_eq_none_iff, State.unwrittenFault_eq_none] at h
  exact h.imp_right bounds_of_boundsFault_eq_none

/-- The rows of a sprite are read in rising order, so the first unwritten one is recorded. -/
theorem firstUnwritten_rowFields {oy rows k : Nat} (hk : k < rows)
    (hlt : ∀ j, j < k → s.has (.disp (rowAt (oy + j))) = true)
    (hun : s.has (.disp (rowAt (oy + k))) = false) :
    s.firstUnwritten (rowFields oy rows) = some (.disp (rowAt (oy + k))) := by
  rw [State.firstUnwritten, rowFields, List.find?_map, List.find?_range_eq_some.mpr]
  · rfl
  · exact ⟨by simp [hun], List.mem_range.mpr hk, fun j hj => by simp [hlt j hj]⟩

end Sys2Proof.Machine

open Sys2Proof.Machine

/-- Settles O20: the operands are read before any other check (`faultOf_of_unwritten`). -/
theorem unwrittenOperandFaults : Obligations.UnwrittenOperandFaults :=
  fun _ s f h => ⟨_, exec_of_fault (faultOf_of_unwritten h), faultsWith_raised (.unwrittenRead f) s⟩

/-- Settles O53: operands and bound pass, and of the rows read in rising order the k-th is the first unwritten. -/
theorem unwrittenRowFaults : Obligations.UnwrittenRowFaults := by
  rintro x y n s _ _ k rfl rfl hx hy hi hmem hk hlt hun
  refine ⟨_, exec_of_fault ?_, faultsWith_raised (.unwrittenRead (.disp (rowAt ((s.getV y).toNat % 32 + k)))) s⟩
  have hrow := firstUnwritten_rowFields hk hlt hun
  rw [faultOf_of_has (by simp [readsOf, hx, hy, hi])]
  have hrange : rangeFault s.i.toNat (spriteRows y n s) = none := rangeFault_eq_none.mpr (.inr hmem)
  rw [boundsFault, hrange, Option.none_or]
  exact congrArg (Option.map Fault.unwrittenRead) hrow
end

section
/-! ST is never read (10_state.md R41): every check and every update goes the same way whatever byte is in it. -/

namespace Sys2Proof.Machine

/-- The state with another value in ST, and its place in WRITTEN as it was. -/
def State.withSt (s : State) (b : Byte) : State := { s with st := b }

variable (s : State) (b : Byte)

theorem faultOf_withSt (i : Instr) : faultOf i (s.withSt b) = faultOf i s := by
  cases i <;> rfl

theorem State.setFlagThenResult_withSt (x : RegIdx) (flag result : Byte) :
    (s.withSt b).setFlagThenResult x flag result = (s.setFlagThenResult x flag result).withSt b := by
  unfold State.setFlagThenResult State.withSt
  cases s.params.vfDestOrder <;> rfl

theorem State.setResultThenFlag_withSt (x : RegIdx) (result flag : Byte) :
    (s.withSt b).setResultThenFlag x result flag = (s.setResultThenFlag x result flag).withSt b := by
  simp only [State.setResultThenFlag_eq]
  rfl

theorem State.storeRange_withSt (base n : Nat) : (s.withSt b).storeRange base n = (s.storeRange base n).withSt b := by
  induction n with
  | zero => rfl
  | succ n ih =>
    rw [State.storeRange, ih]
    rfl

theorem State.loadRange_withSt (base n : Nat) : (s.withSt b).loadRange base n = (s.loadRange base n).withSt b := by
  induction n with
  | zero => rfl
  | succ n ih =>
    rw [State.loadRange, ih]
    rfl

theorem State.xorRow_withSt (r : RowIdx) (p : Row) : (s.withSt b).xorRow r p = (s.xorRow r p).withSt b := by
  unfold State.xorRow
  rw [apply_ite (fun t : State => t.withSt b)]
  rfl

theorem State.drawRows_withSt (base ox oy n : Nat) :
    (s.withSt b).drawRows base ox oy n = (s.drawRows base ox oy n).withSt b := by
  induction n with
  | zero => rfl
  | succ n ih =>
    rw [State.drawRows, ih]
    exact State.xorRow_withSt ..

/-- The normal next state of an instruction but Fx18 carries ST along. -/
theorem normal_withSt {i : Instr} (hi : ∀ x, i ≠ .ldStVx x) : normal i (s.withSt b) = (normal i s).withSt b := by
  cases i with
  | ldStVx x => exact absurd rfl (hi x)
  | addReg _ _ | subReg _ _ | shr _ _ | shl _ _ => exact congrArg State.advance (State.setFlagThenResult_withSt ..)
  | subnReg _ _ => exact congrArg State.advance (State.setResultThenFlag_withSt ..)
  | drw _ _ _ => exact congrArg State.advance (State.drawRows_withSt (s.setV vf 0) b _ _ _ _)
  | storeRegs _ => exact congrArg State.advance (State.storeRange_withSt ..)
  | loadRegs _ => exact congrArg State.advance (State.loadRange_withSt ..)
  | ldVxK x =>
    cases hk : s.key with
    | none => rw [normal_ldVxK_none hk, normal_ldVxK_none (s := s.withSt b) hk]
    | some k =>
      rw [normal_ldVxK_some hk, normal_ldVxK_some (s := s.withSt b) hk]
      rfl
  | cls | ret | jp _ | call _ | seImm _ _ | sneImm _ _ | seReg _ _ | sneReg _ _ | ldImm _ _ | addImm _ _ | ldReg _ _
  | orReg _ _ | andReg _ _ | xorReg _ _ | ldI _ | jpV0 _ | rnd _ _ | skp _ | sknp _ | ldVxDt _ | ldDtVx _ | addI _ | ldF _
  | ldB _ => rfl

end Sys2Proof.Machine

open Sys2Proof.Machine

/-- Settles O21: the fault is the same (`faultOf_withSt`) and recording it carries ST along, as the normal next state does
(`normal_withSt`) but for Fx18, which overwrites ST. -/
theorem soundTimerIsNeverRead : Obligations.SoundTimerIsNeverRead := by
  intro i s t b h
  have hst := faultOf_withSt s b i
  cases hf : faultOf i s with
  | some r =>
    obtain rfl := Host.Outcome.next.inj ((exec_of_fault hf).symm.trans h)
    have hnot : ¬∃ x, i = .ldStVx x ∧ s.has (.v x) = true := by
      rintro ⟨x, rfl, hx⟩
      rw [faultOf_of_has (by simp [readsOf, hx])] at hf
      cases hf
    rw [if_neg hnot]
    exact exec_of_fault (hst.trans hf)
  | none =>
    obtain rfl := Host.Outcome.next.inj ((exec_of_noFault hf).symm.trans h)
    refine (exec_of_noFault (hst.trans hf)).trans (congrArg Host.Outcome.next ?_)
    by_cases hi : ∃ x, i = .ldStVx x
    · obtain ⟨x, rfl⟩ := hi
      obtain ⟨hr, -⟩ := has_and_bounds_of_noFault hf
      have hx : s.has (.v x) = true := hr _ (List.mem_singleton_self _)
      rw [if_pos ⟨x, rfl, hx⟩]
      rfl
    · rw [if_neg fun ⟨x, hx, _⟩ => hi ⟨x, hx⟩]
      exact normal_withSt s b fun x hx => hi ⟨x, hx⟩
end

section
/-! The values of unwritten fields are never seen (10_state.md R51; D8): each operation of the state takes two states that
agree on WRITTEN to two that do, and so do the checks, the instructions and the step. -/

namespace Sys2Proof.Machine.AgreeOnWritten

variable {s s' : State}

/-! ### The updates -/

theorem byte_eq (h : AgreeOnWritten s s') (a : Nat) : s'.byte a = s.byte a := by
  rw [State.byte, h.bytes, State.byte]

theorem word_eq (h : AgreeOnWritten s s') (a : Nat) : s'.word a = s.word a := by
  rw [State.word, h.byte_eq, h.byte_eq, State.word]

theorem fetchWord_eq (h : AgreeOnWritten s s') : s'.fetchWord = s.fetchWord := by
  rw [State.fetchWord, h.pc, h.word_eq, State.fetchWord]

theorem setPc (h : AgreeOnWritten s s') (w : Word) : AgreeOnWritten (s.setPc w) (s'.setPc w) :=
  { h with pc := rfl, has := by simpa using h.has }

theorem setSp (h : AgreeOnWritten s s') (w : Word) : AgreeOnWritten (s.setSp w) (s'.setSp w) :=
  { h with sp := rfl, has := by simpa using h.has }

theorem countDraw (h : AgreeOnWritten s s') : AgreeOnWritten s.countDraw s'.countDraw :=
  { h with draws := congrArg (· + 1) h.draws, has := by simpa using h.has }

theorem setByte (h : AgreeOnWritten s s') (a : Nat) (b : Byte) : AgreeOnWritten (s.setByte a b) (s'.setByte a b) :=
  { h with bytes := congrArg (Mem.write · a b) h.bytes, has := by simpa using h.has }

theorem ended (h : AgreeOnWritten s s') : AgreeOnWritten s.ended s'.ended :=
  { h with eop := rfl, has := by simpa using h.has }

theorem raised (h : AgreeOnWritten s s') (r : Fault) : AgreeOnWritten (s.raised r) (s'.raised r) :=
  { h with
    fault := by simp [h.pc, h.fetchWord_eq]
    has := by simpa using h.has }

theorem setV (h : AgreeOnWritten s s') (x : RegIdx) (b : Byte) : AgreeOnWritten (s.setV x b) (s'.setV x b) :=
  { h with
    has := fun f => by simp [h.has]
    v := fun k hk => by
      rw [State.getV_setV, State.getV_setV]
      split
      · rfl
      next hne => exact h.v k (by simpa [hne] using hk) }

theorem setI (h : AgreeOnWritten s s') (w : Word) : AgreeOnWritten (s.setI w) (s'.setI w) :=
  { h with has := fun f => by simp [h.has], i := fun _ => rfl }

theorem setDt (h : AgreeOnWritten s s') (b : Byte) : AgreeOnWritten (s.setDt b) (s'.setDt b) :=
  { h with has := fun f => by simp [h.has], dt := fun _ => rfl }

theorem setSt (h : AgreeOnWritten s s') (b : Byte) : AgreeOnWritten (s.setSt b) (s'.setSt b) :=
  { h with has := fun f => by simp [h.has], st := fun _ => rfl }

theorem setRow (h : AgreeOnWritten s s') (r : RowIdx) (w : Row) : AgreeOnWritten (s.setRow r w) (s'.setRow r w) :=
  { h with
    has := fun f => by simp [h.has]
    rows := fun k hk => by
      rw [State.getRow_setRow, State.getRow_setRow]
      split
      · rfl
      next hne => exact h.rows k (by simpa [hne] using hk) }

theorem clearRows (h : AgreeOnWritten s s') : AgreeOnWritten s.clearRows s'.clearRows :=
  { h with
    has := fun f => by
      cases f with
      | disp r => simp
      | v _ | i | dt | st | key => simp [h.has]
    rows := fun r _ => by simp }

theorem advance (h : AgreeOnWritten s s') : AgreeOnWritten s.advance s'.advance := by
  rw [State.advance_eq, State.advance_eq, h.pc]
  exact h.setPc _

theorem skip (h : AgreeOnWritten s s') (c : Bool) : AgreeOnWritten (s.skip c) (s'.skip c) := by
  rw [State.skip_eq, State.skip_eq, h.pc]
  exact h.setPc _

theorem setWord (h : AgreeOnWritten s s') (a : Nat) (w : Word) : AgreeOnWritten (s.setWord a w) (s'.setWord a w) :=
  (h.setByte ..).setByte ..

theorem pushed (h : AgreeOnWritten s s') (w : Word) : AgreeOnWritten (s.pushed w) (s'.pushed w) := by
  rw [State.pushed, State.pushed, h.sp]
  exact (h.setWord ..).setSp _

theorem popped (h : AgreeOnWritten s s') : AgreeOnWritten s.popped s'.popped := by
  rw [State.popped, State.popped, h.sp]
  exact (h.setSp _).setWord ..

theorem topOfStack_eq (h : AgreeOnWritten s s') : s'.topOfStack = s.topOfStack := by
  rw [State.topOfStack, h.sp, h.word_eq, State.topOfStack]

theorem setDigits (h : AgreeOnWritten s s') (base : Nat) (b : Byte) :
    AgreeOnWritten (s.setDigits base b) (s'.setDigits base b) :=
  ((h.setByte ..).setByte ..).setByte ..

theorem setFlagThenResult (h : AgreeOnWritten s s') (x : RegIdx) (flag result : Byte) :
    AgreeOnWritten (s.setFlagThenResult x flag result) (s'.setFlagThenResult x flag result) := by
  unfold State.setFlagThenResult
  rw [h.params]
  split
  · exact (h.setV ..).setV ..
  · exact (h.setV ..).setV ..

theorem setResultThenFlag (h : AgreeOnWritten s s') (x : RegIdx) (result flag : Byte) :
    AgreeOnWritten (s.setResultThenFlag x result flag) (s'.setResultThenFlag x result flag) := by
  rw [State.setResultThenFlag_eq, State.setResultThenFlag_eq]
  exact (h.setV ..).setV ..

theorem storeRange (h : AgreeOnWritten s s') (base n : Nat) (hr : ∀ f ∈ regFields n, s.has f = true) :
    AgreeOnWritten (s.storeRange base n) (s'.storeRange base n) := by
  have hv : ∀ k, k < n → s'.getV (regAt k) = s.getV (regAt k) := fun k hk =>
    h.v _ (hr _ (List.mem_map_of_mem (List.mem_range.mpr hk)))
  clear hr
  induction n with
  | zero => exact h
  | succ n ih =>
    rw [State.storeRange, State.storeRange, hv n (Nat.lt_succ_self n)]
    exact (ih fun k hk => hv k (Nat.lt_succ_of_lt hk)).setByte ..

theorem loadRange (h : AgreeOnWritten s s') (base n : Nat) :
    AgreeOnWritten (s.loadRange base n) (s'.loadRange base n) := by
  induction n with
  | zero => exact h
  | succ n ih =>
    rw [State.loadRange, State.loadRange, h.byte_eq]
    exact ih.setV ..

theorem xorRow (h : AgreeOnWritten s s') {r : RowIdx} (hr : s.has (.disp r) = true) (p : Row) :
    AgreeOnWritten (s.xorRow r p) (s'.xorRow r p) := by
  unfold State.xorRow
  rw [h.rows r hr]
  split
  · exact h.setRow ..
  · exact (h.setRow ..).setV ..

/-- Rows that are drawn are read, so they must be written. -/
theorem drawRows (h : AgreeOnWritten s s') (base ox oy : Nat) {n : Nat}
    (hr : ∀ k, k < n → s.has (.disp (rowAt (oy + k))) = true) :
    AgreeOnWritten (s.drawRows base ox oy n) (s'.drawRows base ox oy n) := by
  induction n with
  | zero => exact h
  | succ n ih =>
    rw [State.drawRows, State.drawRows, h.byte_eq]
    refine (ih fun k hk => hr k (Nat.lt_succ_of_lt hk)).xorRow ?_ _
    exact State.has_drawRows_of_has s base ox oy n (hr n (Nat.lt_succ_self n))

/-! ### An operand that is written has the same value in both states -/

theorem operandV (h : AgreeOnWritten s s') {i : Instr} (hr : ∀ f ∈ readsOf i, s.has f = true) (x : RegIdx)
    (hx : Field.v x ∈ readsOf i := by simp [readsOf]) : s'.getV x = s.getV x :=
  h.v x (hr _ hx)

theorem operandI (h : AgreeOnWritten s s') {i : Instr} (hr : ∀ f ∈ readsOf i, s.has f = true)
    (hi : Field.i ∈ readsOf i := by simp [readsOf]) : s'.i = s.i :=
  h.i (hr _ hi)

theorem operandDt (h : AgreeOnWritten s s') {i : Instr} (hr : ∀ f ∈ readsOf i, s.has f = true)
    (hdt : Field.dt ∈ readsOf i := by simp [readsOf]) : s'.dt = s.dt :=
  h.dt (hr _ hdt)

theorem operandKey (h : AgreeOnWritten s s') {i : Instr} (hr : ∀ f ∈ readsOf i, s.has f = true)
    (hkey : Field.key ∈ readsOf i := by simp [readsOf]) : s'.key = s.key :=
  h.key (hr _ hkey)

/-! ### The checks -/

theorem firstUnwritten_eq (h : AgreeOnWritten s s') (fs : List Field) :
    s'.firstUnwritten fs = s.firstUnwritten fs := by
  simp only [State.firstUnwritten, h.has]

theorem unwrittenFault_eq (h : AgreeOnWritten s s') (fs : List Field) :
    s'.unwrittenFault fs = s.unwrittenFault fs := by
  rw [State.unwrittenFault, h.firstUnwritten_eq, State.unwrittenFault]

/-- With the operands written, the bounds are those of the same numbers. -/
theorem boundsFault_eq (h : AgreeOnWritten s s') {i : Instr} (hr : ∀ f ∈ readsOf i, s.has f = true) :
    boundsFault i s' = boundsFault i s := by
  cases i with
  | ret => simp only [boundsFault, h.sp]
  | call _ => simp only [boundsFault, h.sp, h.params]
  | drw x y n => simp only [boundsFault, spriteRows, h.operandV hr y, h.operandI hr, h.unwrittenFault_eq]
  | addI x => simp only [boundsFault, h.operandV hr x, h.operandI hr]
  | ldB _ | storeRegs _ | loadRegs _ => simp only [boundsFault, h.operandI hr]
  | _ => rfl

theorem faultOf_eq (h : AgreeOnWritten s s') (i : Instr) : faultOf i s' = faultOf i s := by
  rw [faultOf, faultOf, h.unwrittenFault_eq]
  cases hf : s.firstUnwritten (readsOf i) with
  | some f => simp [State.unwrittenFault, hf]
  | none => rw [h.boundsFault_eq (State.firstUnwritten_eq_none.mp hf)]

/-! ### The instructions -/

theorem normal (h : AgreeOnWritten s s') {i : Instr} (hr : ∀ f ∈ readsOf i, s.has f = true) (hb : bounds i s) :
    AgreeOnWritten (normal i s) (normal i s') := by
  cases i <;> simp only [Machine.normal]
  case cls => exact h.clearRows.advance
  case ret => rw [h.topOfStack_eq]; exact h.popped.setPc _
  case jp => exact h.setPc _
  case call => rw [h.pc]; exact (h.pushed _).setPc _
  case seImm x _ | sneImm x _ => rw [h.operandV hr x]; exact h.skip _
  case seReg x y | sneReg x y => rw [h.operandV hr x, h.operandV hr y]; exact h.skip _
  case skp x | sknp x => rw [h.params, h.operandKey hr, h.operandV hr x]; exact h.skip _
  case jpV0 => rw [h.operandV hr 0]; exact h.setPc _
  case ldImm => exact (h.setV ..).advance
  case addImm x _ => rw [h.operandV hr x]; exact (h.setV ..).advance
  case ldReg _ y => rw [h.operandV hr y]; exact (h.setV ..).advance
  case orReg x y | andReg x y | xorReg x y =>
    rw [h.operandV hr x, h.operandV hr y]; exact (h.setV ..).advance
  case addReg x y | subReg x y =>
    rw [h.operandV hr x, h.operandV hr y]; exact (h.setFlagThenResult ..).advance
  case shr x _ | shl x _ => rw [h.operandV hr x]; exact (h.setFlagThenResult ..).advance
  case subnReg x y =>
    rw [h.operandV hr x, h.operandV hr y]; exact (h.setResultThenFlag ..).advance
  case ldI => exact (h.setI _).advance
  case rnd => rw [h.draws]; exact (h.setV ..).countDraw.advance
  case drw x y n =>
    simp only [spriteRows, h.operandV hr x, h.operandV hr y, h.operandI hr]
    refine ((h.setV vf 0).drawRows _ _ _ fun k hk => ?_).advance
    obtain ⟨-, hrows⟩ := hb
    have hrow := hrows _ (List.mem_map_of_mem (List.mem_range.mpr hk))
    simpa using hrow
  case ldVxDt => rw [h.operandDt hr]; exact (h.setV ..).advance
  case ldVxK =>
    rw [h.operandKey hr]
    split
    · exact h
    · exact (h.setV ..).advance
  case ldDtVx x => rw [h.operandV hr x]; exact (h.setDt _).advance
  case ldStVx x => rw [h.operandV hr x]; exact (h.setSt _).advance
  case addI x => rw [h.operandI hr, h.operandV hr x]; exact (h.setI _).advance
  case ldF x => rw [h.params, h.operandV hr x]; exact (h.setI _).advance
  case ldB x => rw [h.operandI hr, h.operandV hr x]; exact (h.setDigits ..).advance
  case storeRegs x =>
    rw [h.operandI hr]
    exact (h.storeRange _ _ fun f hf => hr f (List.mem_cons_of_mem _ hf)).advance
  case loadRegs => rw [h.operandI hr]; exact (h.loadRange ..).advance

/-- The same instruction answers states that agree: it raises the same fault, or leaves its normal next state. -/
theorem exec (h : AgreeOnWritten s s') (i : Instr) :
    ∃ t t', exec i s = .next t ∧ exec i s' = .next t' ∧ AgreeOnWritten t t' := by
  cases hf : faultOf i s with
  | some r => exact ⟨_, _, exec_of_fault hf, exec_of_fault ((h.faultOf_eq i).trans hf), h.raised r⟩
  | none =>
    obtain ⟨hr, hb⟩ := has_and_bounds_of_noFault hf
    exact ⟨_, _, exec_of_noFault hf, exec_of_noFault ((h.faultOf_eq i).trans hf), h.normal hr hb⟩

/-! ### The step -/

theorem atEnd_eq (h : AgreeOnWritten s s') : s'.atEnd = s.atEnd := by
  rw [State.atEnd, h.params, h.pc, State.atEnd]

theorem decoded_eq (h : AgreeOnWritten s s') : s'.decoded = s.decoded := by
  rw [State.decoded, h.params, h.fetchWord_eq, State.decoded]

/-- Both steps pass the same checks, and are done with states that agree or execute the same instruction. -/
theorem step (h : AgreeOnWritten s s') :
    ∃ t t', step s = .next t ∧ step s' = .next t' ∧ AgreeOnWritten t t' := by
  unfold Machine.step State.cycle
  rw [h.fault, h.atEnd_eq, h.decoded_eq, h.fetchWord_eq]
  split_ifs
  · exact ⟨_, _, rfl, rfl, h⟩
  · exact ⟨_, _, rfl, rfl, h.ended⟩
  · cases s.decoded with
    | unknown => exact ⟨_, _, rfl, rfl, h.advance⟩
    | unspecified => exact ⟨_, _, rfl, rfl, h.raised _⟩
    | instr i => exact h.exec i

end Sys2Proof.Machine.AgreeOnWritten

open Sys2Proof.Machine

/-- Settles O22: the steps from two states that agree on WRITTEN answer two that do (`AgreeOnWritten.step`). -/
theorem unwrittenValuesAreNeverSeen : Obligations.UnwrittenValuesAreNeverSeen := by
  intro s s' t h hs
  obtain ⟨u, t', hu, ht', hagree⟩ := h.step
  obtain rfl := Host.Outcome.next.inj (hu.symm.trans hs)
  exact ⟨t', ht', hagree⟩
end

section
/-! Frames as they grow: each write of an instruction keeps a frame that names what it writes. -/

namespace Sys2Proof.Machine

variable {c : Touched} {s t : State}

theorem Frame.refl (c : Touched) (s : State) : Frame c s s where
  v _ _ := ⟨rfl, rfl⟩
  i _ := ⟨rfl, rfl⟩
  sp _ := rfl
  dt _ := ⟨rfl, rfl⟩
  st _ := ⟨rfl, rfl⟩
  rows _ _ := ⟨rfl, rfl⟩
  bytes _ _ := rfl
  key := ⟨rfl, rfl⟩
  eop := rfl
  fault := rfl
  params := rfl
  draws _ := rfl

/-- PC is outside every frame. -/
theorem Frame.setPc (h : Frame c s t) (w : Word) : Frame c s (t.setPc w) := { h with }

theorem Frame.setSp (h : Frame c s t) (hc : c.sp = true) (w : Word) : Frame c s (t.setSp w) :=
  { h with sp := fun hf => absurd (hc.symm.trans hf) (by decide) }

theorem Frame.setByte (h : Frame c s t) {a : Nat} (ha : a ∈ c.bytes) (b : Byte) : Frame c s (t.setByte a b) :=
  { h with
    bytes := fun k hk => by
      have hne : k ≠ a := fun e => hk (e ▸ ha)
      rw [State.byte_setByte, if_neg hne, h.bytes k hk] }

theorem Frame.setWord (h : Frame c s t) {a : Nat} (hhi : a ∈ c.bytes) (hlo : a + 1 ∈ c.bytes) (w : Word) :
    Frame c s (t.setWord a w) :=
  (h.setByte hhi _).setByte hlo _

end Sys2Proof.Machine
end

section
/-! Memory (20_memory.md): who writes it and the display, the stack frame of 2nnn and 00EE, and the accesses through I that
pass its end. -/

namespace Sys2Proof.Machine

variable {s : State}

/-! ### Writers -/

/-- An instruction that does not write the display (44_display.md R240) leaves its rows. -/
theorem normal_row (i : Instr) (s : State) (h : writesDisp i = false) (r : RowIdx) :
    (normal i s).getRow r = s.getRow r ∧ (normal i s).has (.disp r) = s.has (.disp r) := by
  cases i <;> simp only [normal] <;> simp only [writesDisp, Bool.true_eq_false] at h
  case addReg x _ | subReg x _ | shr x _ | shl x _ =>
    rcases State.setFlagThenResult_cases s x _ _ with h | h <;> rw [h] <;> simp [State.advance_eq]
  case subnReg => rw [State.setResultThenFlag_eq]; simp [State.advance_eq]
  case storeRegs => rw [State.advance_eq, State.storeRange_eq]; exact ⟨rfl, rfl⟩
  case loadRegs => rw [State.advance_eq, State.loadRange_eq]; exact ⟨rfl, rfl⟩
  case ldVxK => split <;> simp [State.advance_eq]
  case ret => simp [State.popped, State.setWord_eq]
  case call => simp [State.pushed, State.setWord_eq]
  all_goals simp [State.advance_eq, State.skip_eq, State.setDigits]

theorem normal_byte (i : Instr) (s : State) (h : writesMem i = false) (a : Nat) : (normal i s).byte a = s.byte a :=
  congrArg (Mem.read · a) (normal_mem i s h)

/-! ### Calls and returns -/

theorem toNat_addr16 (nnn : BitVec 12) : (addr16 nnn).toNat = nnn.toNat :=
  BitVec.toNat_setWidth_of_le (by decide)

theorem exec_ret (hlow : stackBase.toNat + 2 ≤ s.sp.toNat) (hhigh : s.sp.toNat ≤ memSize) :
    exec .ret s = .next (s.popped.setPc s.topOfStack) :=
  exec_normal (i := .ret) (by simp [readsOf]) ⟨hlow, hhigh⟩

theorem exec_call (nnn : BitVec 12) (hlimit : s.sp.toNat + 2 ≤ s.params.stackLimit.toNat)
    (hmem : s.sp.toNat + 2 ≤ memSize) :
    exec (.call nnn) s = .next ((s.pushed (s.pc + 2)).setPc (addr16 nnn)) :=
  exec_normal (i := .call nnn) (by simp [readsOf]) ⟨hlimit, hmem⟩

/-- A push changes SP and the two bytes of its frame. -/
theorem frame_pushed (s : State) (w : Word) :
    Frame { sp := true, bytes := [s.sp.toNat, s.sp.toNat + 1] } s (s.pushed w) :=
  ((Frame.refl _ s).setWord (by simp) (by simp) w).setSp rfl _

/-- The frame pushed holds the word, big-endian (R86). -/
theorem word_pushed (s : State) (w : Word) : (s.pushed w).word s.sp.toNat = w := by
  simp [State.word, State.byte_pushed]

/-- A pop changes SP and the two bytes of its frame. -/
theorem frame_popped (s : State) :
    Frame { sp := true, bytes := [s.sp.toNat - 2, s.sp.toNat - 2 + 1] } s s.popped :=
  ((Frame.refl _ s).setSp rfl _).setWord (by simp) (by simp) 0

/-! ### Faults after the operands are read -/

/-- With the operands written the fault of the bounds is the one recorded, and nothing is written. -/
theorem exec_faultsWith {i : Instr} {r : Fault} (hr : ∀ f ∈ readsOf i, s.has f = true) (hb : boundsFault i s = some r) :
    ∃ t, exec i s = .next t ∧ FaultsWith r s t :=
  ⟨_, exec_of_fault ((faultOf_of_has hr).trans hb), faultsWith_raised r s⟩

theorem rangeFault_of_lt {base n : Nat} (hn : 0 < n) (h : memSize < base + n) :
    rangeFault base n = some (.memOutOfRange (max base memSize)) :=
  if_pos ⟨hn, h⟩

/-- The operands of Fx55 are I and V0 to Vx. -/
theorem has_readsOf_storeRegs {x : RegIdx} (hi : s.has .i = true)
    (hv : ∀ k : RegIdx, k.toNat ≤ x.toNat → s.has (.v k) = true) : ∀ f ∈ readsOf (.storeRegs x), s.has f = true := by
  simp only [readsOf, List.forall_mem_cons, List.forall_mem_map, List.mem_range]
  refine ⟨hi, fun k hk => hv _ ?_⟩
  simp only [BitVec.toNat_ofNat]
  omega

end Sys2Proof.Machine

open Sys2Proof.Machine

/-- Settles O17: a fault writes neither, and `normal_row` and `normal_byte` are the claim about the normal next state. -/
theorem displayAndMemoryWriters : Obligations.DisplayAndMemoryWriters := by
  intro i s t h
  rcases exec_cases h with ⟨r, rfl⟩ | ⟨rfl, -, -⟩
  · exact ⟨fun _ _ => ⟨State.getRow_raised .., State.has_raised ..⟩, fun _ _ => rfl⟩
  · exact ⟨normal_row i s, normal_byte i s⟩

/-- Settles O33: the state is `popped` with PC the word it took; above STACK_BASE the frame's second byte is at SP - 1. -/
theorem retPopsIntoPc : Obligations.RetPopsIntoPc := by
  intro s hlow hhigh
  have hlo : s.sp.toNat - 2 + 1 = s.sp.toNat - 1 := by omega
  refine ⟨_, exec_ret hlow hhigh, ?_, rfl, ?_, ?_, ?_⟩
  · rw [← hlo]; rfl
  · simp [State.byte_popped]
  · simp [State.byte_popped, hlo]
  · rw [← hlo]
    exact (frame_popped s).setPc _

/-- Settles O35: the state is `pushed` with PC at nnn, and the frame holds the return address (`word_pushed`). -/
theorem callPushesReturnAddress : Obligations.CallPushesReturnAddress := fun nnn s hlimit hmem =>
  ⟨_, exec_call nnn hlimit hmem, toNat_addr16 nnn, rfl, word_pushed s (s.pc + 2),
    (frame_pushed s (s.pc + 2)).setPc _⟩

/-- Settles O36: of the checks of a push and of a pop this one comes first, and neither reads an operand. -/
theorem stackFaultsWriteNothing : Obligations.StackFaultsWriteNothing :=
  ⟨fun nnn _ h => exec_faultsWith (i := .call nnn) (by simp [readsOf]) (if_pos h),
    fun _ h => exec_faultsWith (i := .ret) (by simp [readsOf]) (if_pos h)⟩

/-- Settles O48: the operands are written, so the range is the check that fails (`rangeFault_of_lt`); of a draw it is that of
the rows drawn, checked before the display is read. -/
theorem accessBeyondMemoryFaults : Obligations.AccessBeyondMemoryFaults := by
  refine ⟨fun x s hx hi h => ?_, fun x s hi hv h => ?_, fun x s hi h => ?_, fun x y n s hx hy hi hn h => ?_⟩
  · exact exec_faultsWith (by simp [readsOf, hx, hi]) (rangeFault_of_lt (by decide) (Nat.succ_lt_succ h))
  · exact exec_faultsWith (has_readsOf_storeRegs hi hv) (rangeFault_of_lt (Nat.succ_pos _) (Nat.succ_lt_succ h))
  · exact exec_faultsWith (by simp [readsOf, hi]) (rangeFault_of_lt (Nat.succ_pos _) (Nat.succ_lt_succ h))
  · refine exec_faultsWith (by simp [readsOf, hx, hy, hi]) ?_
    have hrange : rangeFault s.i.toNat (spriteRows y n s) = some (.memOutOfRange (max s.i.toNat memSize)) :=
      rangeFault_of_lt hn h
    rw [boundsFault, hrange, Option.some_or]
    rfl
end

section
/-! The opcode map (30_encoding.md): decoder and encoder undo each other, every word that matches a row of R122 decodes to
an instruction of it, and the words of no row are the Unknown and Unspecified ones of R130 to R132. -/

namespace Sys2Proof

open Sys2Proof.Machine Sys2Proof.Laws.FixedBits

variable {mode : BnnnMode} {w : Word} {i : Instr}

/-! ### The decoder on an encoded word -/

/-- The family of `encode i` is read back from its top nibble, the operands from the fields of its format. -/
theorem decode_encode (hi : i.wellFormed mode = true) : decode mode (encode i) = .instr i := by
  cases i with
  | cls | ret => simp [encode, decode_family0, decodeFamily0]
  | jp _ => simp [encode, decode_family1]
  | call _ => simp [encode, decode_family2]
  | seImm _ _ => simp [encode, decode_family3]
  | sneImm _ _ => simp [encode, decode_family4]
  | seReg _ _ => simp [encode, decode_family5]
  | ldImm _ _ => simp [encode, decode_family6]
  | addImm _ _ => simp [encode, decode_family7]
  | ldReg _ _ | orReg _ _ | andReg _ _ | xorReg _ _ | addReg _ _ | subReg _ _ | shr _ _ | subnReg _ _ | shl _ _ =>
    simp [encode, decode_family8, decodeFamily8]
  | sneReg _ _ => simp [encode, decode_family9]
  | ldI _ => simp [encode, decode_familyA]
  | jpV0 _ =>
    obtain rfl : mode = .jumpV0 := of_decide_eq_true hi
    simp [encode, decode_familyB, decodeFamilyB]
  | rnd _ _ => simp [encode, decode_familyC]
  | drw _ _ _ => simp [encode, decode_familyD]
  | skp _ | sknp _ => simp [encode, decode_familyE, decodeFamilyE]
  | ldVxDt _ | ldVxK _ | ldDtVx _ | ldStVx _ | addI _ | ldF _ | ldB _ | storeRegs _ | loadRegs _ =>
    simp [encode, decode_familyF, decodeFamilyF]

/-! ### The encoder on a decoded word -/

theorem encodeAddr_of_family {n1 : BitVec 4} (h : nibble w 12 = n1) : encodeAddr n1 (immAddr w) = w :=
  h ▸ encodeAddr_fields w

theorem encodeByte_of_family {n1 : BitVec 4} (h : nibble w 12 = n1) : encodeByte n1 (nibble w 8) (immByte w) = w :=
  h ▸ encodeByte_fields w

theorem encodeNibbles_of_family {n1 : BitVec 4} (h : nibble w 12 = n1) :
    encodeNibbles n1 (nibble w 8) (nibble w 4) (nibble w 0) = w :=
  h ▸ encodeNibbles_fields w

theorem decodeFamily0_instr {nnn : BitVec 12} (h : decodeFamily0 nnn = .instr i) :
    encode i = encodeAddr 0x0 nnn ∧ i.wellFormed mode = true := by
  unfold decodeFamily0 at h
  split_ifs at h <;> cases h <;> subst_vars <;> exact ⟨rfl, rfl⟩

theorem decodeFamily8_instr {x y n : BitVec 4} (h : decodeFamily8 x y n = .instr i) :
    encode i = encodeNibbles 0x8 x y n ∧ i.wellFormed mode = true := by
  unfold decodeFamily8 at h
  split_ifs at h <;> cases h <;> subst_vars <;> exact ⟨rfl, rfl⟩

theorem decodeFamilyB_instr {nnn : BitVec 12} (h : decodeFamilyB mode nnn = .instr i) :
    encode i = encodeAddr 0xB nnn ∧ i.wellFormed mode = true := by
  cases mode <;> cases h
  exact ⟨rfl, rfl⟩

theorem decodeFamilyE_instr {x : BitVec 4} {nn : Byte} (h : decodeFamilyE x nn = .instr i) :
    encode i = encodeByte 0xE x nn ∧ i.wellFormed mode = true := by
  unfold decodeFamilyE at h
  split_ifs at h <;> cases h <;> subst_vars <;> exact ⟨rfl, rfl⟩

theorem decodeFamilyF_instr {x : BitVec 4} {nn : Byte} (h : decodeFamilyF x nn = .instr i) :
    encode i = encodeByte 0xF x nn ∧ i.wellFormed mode = true := by
  unfold decodeFamilyF at h
  split_ifs at h <;> cases h <;> subst_vars <;> exact ⟨rfl, rfl⟩

/-- A word is put together again from the fields its family reads (`encodeAddr_of_family` and its two siblings). -/
theorem encode_of_decode (h : decode mode w = .instr i) : encode i = w ∧ i.wellFormed mode = true := by
  rcases nibble_cases (nibble w 12) with
    hf | hf | hf | hf | hf | hf | hf | hf | hf | hf | hf | hf | hf | hf | hf | hf
  · rw [decode_family0 hf] at h
    exact (decodeFamily0_instr h).imp_left (·.trans (encodeAddr_of_family hf))
  · cases (decode_family1 hf).symm.trans h; exact ⟨encodeAddr_of_family hf, rfl⟩
  · cases (decode_family2 hf).symm.trans h; exact ⟨encodeAddr_of_family hf, rfl⟩
  · cases (decode_family3 hf).symm.trans h; exact ⟨encodeByte_of_family hf, rfl⟩
  · cases (decode_family4 hf).symm.trans h; exact ⟨encodeByte_of_family hf, rfl⟩
  · rw [decode_family5 hf] at h
    split_ifs at h with hn
    cases h; exact ⟨(congrArg (encodeNibbles _ _ _) hn.symm).trans (encodeNibbles_of_family hf), rfl⟩
  · cases (decode_family6 hf).symm.trans h; exact ⟨encodeByte_of_family hf, rfl⟩
  · cases (decode_family7 hf).symm.trans h; exact ⟨encodeByte_of_family hf, rfl⟩
  · rw [decode_family8 hf] at h
    exact (decodeFamily8_instr h).imp_left (·.trans (encodeNibbles_of_family hf))
  · rw [decode_family9 hf] at h
    split_ifs at h with hn
    cases h; exact ⟨(congrArg (encodeNibbles _ _ _) hn.symm).trans (encodeNibbles_of_family hf), rfl⟩
  · cases (decode_familyA hf).symm.trans h; exact ⟨encodeAddr_of_family hf, rfl⟩
  · rw [decode_familyB hf] at h
    exact (decodeFamilyB_instr h).imp_left (·.trans (encodeAddr_of_family hf))
  · cases (decode_familyC hf).symm.trans h; exact ⟨encodeByte_of_family hf, rfl⟩
  · cases (decode_familyD hf).symm.trans h; exact ⟨encodeNibbles_of_family hf, rfl⟩
  · rw [decode_familyE hf] at h
    exact (decodeFamilyE_instr h).imp_left (·.trans (encodeByte_of_family hf))
  · rw [decode_familyF hf] at h
    exact (decodeFamilyF_instr h).imp_left (·.trans (encodeByte_of_family hf))

/-! ### The rows of the opcode map -/

/-- The word of every instruction carries the fixed bits of its row (the family FixedBits, put together). -/
theorem encode_and_opcodeMask (i : Instr) : encode i &&& opcodeMask i = opcodeMatch i := by
  cases i with
  | cls | ret => rfl
  | jp _ | call _ | ldI _ | jpV0 _ => exact addr_fixed _ _
  | seImm _ _ | sneImm _ _ | ldImm _ _ | addImm _ _ | rnd _ _ => exact imm_fixed _ _ _
  | seReg _ _ | sneReg _ _ | ldReg _ _ | orReg _ _ | andReg _ _ | xorReg _ _ | addReg _ _ | subReg _ _ | shr _ _
  | subnReg _ _ | shl _ _ => exact nibbles_fixed _ _ _ _
  | drw _ _ _ => exact sprite_fixed _ _ _ _
  | skp _ | sknp _ | ldVxDt _ | ldVxK _ | ldDtVx _ | ldStVx _ | addI _ | ldF _ | ldB _ | storeRegs _ | loadRegs _ =>
    exact byte_fixed _ _ _

/-- Two words that agree under a mask agree on a nibble that it covers. -/
theorem nibble_eq_of_and_eq {v m : Word} {lo : Nat} (h : w &&& m = v &&& m) (hm : nibble m lo = 0xF) :
    nibble w lo = nibble v lo := by
  have hand (u : Word) : nibble (u &&& m) lo = nibble u lo := by
    rw [nibble, BitVec.extractLsb'_and, ← nibble, ← nibble, hm, and_ones]
  rw [← hand w, h, hand v]

/-- Two words that agree under a mask agree on the low byte if it covers that. -/
theorem immByte_eq_of_and_eq {v m : Word} (h : w &&& m = v &&& m) (hm : immByte m = 0xFF) : immByte w = immByte v := by
  have hand (u : Word) : immByte (u &&& m) = immByte u := by
    rw [immByte, BitVec.extractLsb'_and, ← immByte, ← immByte, hm]
    exact BitVec.and_allOnes
  rw [← hand w, h, hand v]

/-- A word that matches the row of `i` agrees with the word of `i` under the row's mask. -/
theorem and_eq_of_row (h : w &&& opcodeMask i = opcodeMatch i) : w &&& opcodeMask i = encode i &&& opcodeMask i :=
  h.trans (encode_and_opcodeMask i).symm

theorem nibble12_opcodeMask (i : Instr) : nibble (opcodeMask i) 12 = 0xF := by
  cases i <;> simp only [opcodeMask] <;> decide

/-- A word that matches a row is of the row's family. -/
theorem nibble12_of_row (h : w &&& opcodeMask i = opcodeMatch i) : nibble w 12 = nibble (encode i) 12 :=
  nibble_eq_of_and_eq (and_eq_of_row h) (nibble12_opcodeMask i)

theorem nibble0_of_row (hm : opcodeMask i = 0xF00F) (h : w &&& opcodeMask i = opcodeMatch i) :
    nibble w 0 = nibble (encode i) 0 :=
  nibble_eq_of_and_eq (and_eq_of_row h) (by rw [hm]; decide)

theorem immByte_of_row (hm : opcodeMask i = 0xF0FF) (h : w &&& opcodeMask i = opcodeMatch i) :
    immByte w = immByte (encode i) :=
  immByte_eq_of_and_eq (and_eq_of_row h) (by rw [hm]; decide)

theorem eq_encode_of_row (hm : opcodeMask i = 0xFFFF) (h : w &&& opcodeMask i = opcodeMatch i) : w = encode i := by
  have hand (u : Word) : u &&& 0xFFFF = u := BitVec.and_allOnes
  have h := and_eq_of_row h
  rwa [hm, hand, hand] at h

/-- A word that matches a row is of the row's family, and where the family has several rows the fixed low bits select
this one. -/
theorem decode_of_row (hi : i.wellFormed mode = true) (h : w &&& opcodeMask i = opcodeMatch i) :
    ∃ j, decode mode w = .instr j ∧ opcodeMask j = opcodeMask i ∧ opcodeMatch j = opcodeMatch i := by
  have hf := nibble12_of_row h
  cases i with
  | cls | ret =>
    obtain rfl := eq_encode_of_row rfl h
    exact ⟨_, decode_encode hi, rfl, rfl⟩
  | jp _ => exact ⟨_, decode_family1 (hf.trans (nibble12_encodeAddr ..)), rfl, rfl⟩
  | call _ => exact ⟨_, decode_family2 (hf.trans (nibble12_encodeAddr ..)), rfl, rfl⟩
  | seImm _ _ => exact ⟨_, decode_family3 (hf.trans (nibble12_encodeByte ..)), rfl, rfl⟩
  | sneImm _ _ => exact ⟨_, decode_family4 (hf.trans (nibble12_encodeByte ..)), rfl, rfl⟩
  | seReg _ _ =>
    have hn := (nibble0_of_row rfl h).trans (nibble0_encodeNibbles ..)
    exact ⟨_, (decode_family5 (hf.trans (nibble12_encodeNibbles ..))).trans (if_pos hn), rfl, rfl⟩
  | ldImm _ _ => exact ⟨_, decode_family6 (hf.trans (nibble12_encodeByte ..)), rfl, rfl⟩
  | addImm _ _ => exact ⟨_, decode_family7 (hf.trans (nibble12_encodeByte ..)), rfl, rfl⟩
  | ldReg _ _ | orReg _ _ | andReg _ _ | xorReg _ _ | addReg _ _ | subReg _ _ | shr _ _ | subnReg _ _ | shl _ _ =>
    have hn := (nibble0_of_row rfl h).trans (nibble0_encodeNibbles ..)
    rw [decode_family8 (hf.trans (nibble12_encodeNibbles ..)), hn]
    exact ⟨_, rfl, rfl, rfl⟩
  | sneReg _ _ =>
    have hn := (nibble0_of_row rfl h).trans (nibble0_encodeNibbles ..)
    exact ⟨_, (decode_family9 (hf.trans (nibble12_encodeNibbles ..))).trans (if_pos hn), rfl, rfl⟩
  | ldI _ => exact ⟨_, decode_familyA (hf.trans (nibble12_encodeAddr ..)), rfl, rfl⟩
  | jpV0 _ =>
    obtain rfl : mode = .jumpV0 := of_decide_eq_true hi
    exact ⟨_, decode_familyB (hf.trans (nibble12_encodeAddr ..)), rfl, rfl⟩
  | rnd _ _ => exact ⟨_, decode_familyC (hf.trans (nibble12_encodeByte ..)), rfl, rfl⟩
  | drw _ _ _ => exact ⟨_, decode_familyD (hf.trans (nibble12_encodeNibbles ..)), rfl, rfl⟩
  | skp _ | sknp _ =>
    have hnn := (immByte_of_row rfl h).trans (immByte_encodeByte ..)
    rw [decode_familyE (hf.trans (nibble12_encodeByte ..)), hnn]
    exact ⟨_, rfl, rfl, rfl⟩
  | ldVxDt _ | ldVxK _ | ldDtVx _ | ldStVx _ | addI _ | ldF _ | ldB _ | storeRegs _ | loadRegs _ =>
    have hnn := (immByte_of_row rfl h).trans (immByte_encodeByte ..)
    rw [decode_familyF (hf.trans (nibble12_encodeByte ..)), hnn]
    exact ⟨_, rfl, rfl, rfl⟩

/-! ### The words of no row -/

theorem eq_encodeAddr_iff {n1 : BitVec 4} {nnn : BitVec 12} (hf : nibble w 12 = n1) :
    w = encodeAddr n1 nnn ↔ immAddr w = nnn :=
  ⟨fun h => by rw [h, immAddr_encodeAddr], fun h => h ▸ (encodeAddr_of_family hf).symm⟩

theorem decodeFamily0_unknown_iff {nnn : BitVec 12} : decodeFamily0 nnn = .unknown ↔ nnn ≠ 0x0E0 ∧ nnn ≠ 0x0EE := by
  unfold decodeFamily0
  split_ifs <;> simp_all

theorem decodeFamily8_unknown_iff {x y n : BitVec 4} :
    decodeFamily8 x y n = .unknown ↔ n ∈ [0x8#4, 0x9#4, 0xA#4, 0xB#4, 0xC#4, 0xD#4, 0xF#4] := by
  rcases nibble_cases n with h | h | h | h | h | h | h | h | h | h | h | h | h | h | h | h <;>
    simp [h, decodeFamily8]

theorem decodeFamilyB_unknown_iff {nnn : BitVec 12} : decodeFamilyB mode nnn = .unknown ↔ mode = .unknownNoop := by
  cases mode <;> simp [decodeFamilyB]

theorem decodeFamilyB_unspecified_iff {nnn : BitVec 12} : decodeFamilyB mode nnn = .unspecified ↔ mode = .refuse := by
  cases mode <;> simp [decodeFamilyB]

theorem decodeFamilyE_unknown_iff {x : BitVec 4} {nn : Byte} :
    decodeFamilyE x nn = .unknown ↔ nn ∉ [0x9E#8, 0xA1#8] := by
  unfold decodeFamilyE
  split_ifs <;> simp_all

theorem decodeFamilyF_unknown_iff {x : BitVec 4} {nn : Byte} :
    decodeFamilyF x nn = .unknown ↔ nn ∉ [0x07#8, 0x0A#8, 0x15#8, 0x18#8, 0x1E#8, 0x29#8, 0x33#8, 0x55#8, 0x65#8] := by
  unfold decodeFamilyF
  split_ifs <;> simp_all

@[simp] theorem decodeFamily0_ne_unspecified {nnn : BitVec 12} : decodeFamily0 nnn ≠ .unspecified := by
  unfold decodeFamily0
  split_ifs <;> simp

@[simp] theorem decodeFamily8_ne_unspecified {x y n : BitVec 4} : decodeFamily8 x y n ≠ .unspecified := by
  unfold decodeFamily8
  split_ifs <;> simp

@[simp] theorem decodeFamilyE_ne_unspecified {x : BitVec 4} {nn : Byte} : decodeFamilyE x nn ≠ .unspecified := by
  unfold decodeFamilyE
  split_ifs <;> simp

@[simp] theorem decodeFamilyF_ne_unspecified {x : BitVec 4} {nn : Byte} : decodeFamilyF x nn ≠ .unspecified := by
  unfold decodeFamilyF
  split_ifs <;> simp

end Sys2Proof

open Sys2Proof Sys2Proof.Machine

/-- Settles O1: `decode_encode`, family by family. -/
theorem decodeUndoesEncode : Obligations.DecodeUndoesEncode := fun _ _ => decode_encode

/-- Settles O2: `encode_of_decode`, family by family. -/
theorem encodeUndoesDecode : Obligations.EncodeUndoesDecode := fun _ _ _ => encode_of_decode

/-- Settles O3: a decoded word is the word of its instruction, which carries the row's fixed bits; the other direction is
`decode_of_row`. -/
theorem decoderFollowsOpcodeMap : Obligations.DecoderFollowsOpcodeMap := by
  refine ⟨fun mode w i h => ?_, fun _ _ _ => decode_of_row⟩
  obtain ⟨rfl, -⟩ := encode_of_decode h
  exact encode_and_opcodeMask i

/-- Settles O5: one family for each value of the top nibble; in family 0 the two listed words are told apart by their
addresses (`eq_encodeAddr_iff`). -/
theorem unlistedWordsAreSorted : Obligations.UnlistedWordsAreSorted := by
  intro mode w
  rcases nibble_cases (w.extractLsb' 12 4) with
    hf | hf | hf | hf | hf | hf | hf | hf | hf | hf | hf | hf | hf | hf | hf | hf
  · have hcls : w = 0x00E0#16 ↔ immAddr w = 0x0E0#12 := eq_encodeAddr_iff (nnn := 0x0E0#12) hf
    have hret : w = 0x00EE#16 ↔ immAddr w = 0x0EE#12 := eq_encodeAddr_iff (nnn := 0x0EE#12) hf
    simp [decode_family0 hf, decodeFamily0_unknown_iff, hcls, hret, hf]
  · simp [decode_family1 hf, hf]
  · simp [decode_family2 hf, hf]
  · simp [decode_family3 hf, hf]
  · simp [decode_family4 hf, hf]
  · by_cases hn : w.extractLsb' 0 4 = 0#4 <;> simp [decode_family5 hf, hf, nibble, hn]
  · simp [decode_family6 hf, hf]
  · simp [decode_family7 hf, hf]
  · simp [decode_family8 hf, decodeFamily8_unknown_iff, hf, nibble]
  · by_cases hn : w.extractLsb' 0 4 = 0#4 <;> simp [decode_family9 hf, hf, nibble, hn]
  · simp [decode_familyA hf, hf]
  · simp [decode_familyB hf, decodeFamilyB_unknown_iff, decodeFamilyB_unspecified_iff, hf]
  · simp [decode_familyC hf, hf]
  · simp [decode_familyD hf, hf]
  · simp [decode_familyE hf, decodeFamilyE_unknown_iff, hf, immByte]
  · simp [decode_familyF hf, decodeFamilyF_unknown_iff, hf, immByte]

/-- Settles O4: each word is the encoding of its instruction, and the decoder undoes the encoder. -/
theorem sampleWordsDecodeAsWritten : Obligations.SampleWordsDecodeAsWritten :=
  ⟨decode_encode (i := .ret) rfl, decode_encode (i := .call 0x210) rfl, decode_encode (i := .addImm 0xA 0x03) rfl,
    decode_encode (i := .shl 2 1) rfl, decode_encode (i := .ldI 0x301) rfl, decode_encode (i := .drw 1 2 5) rfl,
    decode_encode (i := .sknp 7) rfl, decode_encode (i := .ldB 0xA) rfl⟩

/-- Settles O40: with V0 written the answer is the normal next state, which sets PC alone. -/
theorem jpV0AddsV0 : Obligations.JpV0AddsV0 := fun nnn s hv0 =>
  ⟨_, exec_normal (i := .jpV0 nnn) (by simpa [readsOf] using hv0) trivial, BitVec.toNat_ofNat _ 16,
    (Frame.refl _ s).setPc _⟩
end

section
/-! The step around `exec` (40_step_cycle.md R151 to R158): a faulted block, the end of the program, and the three ways the
word at PC decodes, one equation each. -/

namespace Sys2Proof.Machine

variable {s : State}

/-! ### The equations of `step` -/

theorem State.atEnd_eq_false_iff : s.atEnd = false ↔ s.pc.toNat < s.params.endPc.value := by
  simp [State.atEnd]

theorem step_of_faulted (h : s.fault.isSome = true) : step s = .next s := by
  simp [step, State.cycle, h]

theorem step_of_atEnd (hf : s.fault = none) (ha : s.atEnd = true) : step s = .next s.ended := by
  simp [step, State.cycle, hf, ha]

section Running
/-! In a running block the decoded word alone says what the step does. -/

variable (hf : s.fault = none) (hpc : s.pc.toNat < s.params.endPc.value)
include hf hpc

theorem step_of_unknown (hd : s.decoded = .unknown) : step s = .next s.advance := by
  simp [step, State.cycle, hf, State.atEnd_eq_false_iff.mpr hpc, hd]

theorem step_of_unspecified (hd : s.decoded = .unspecified) :
    step s = .next (s.raised (.unspecifiedOpcode s.fetchWord)) := by
  simp [step, State.cycle, hf, State.atEnd_eq_false_iff.mpr hpc, hd]

theorem step_of_instr {i : Instr} (hd : s.decoded = .instr i) : step s = exec i s := by
  simp [step, State.cycle, hf, State.atEnd_eq_false_iff.mpr hpc, hd]

theorem State.stepDiag_of_unknown (hd : s.decoded = .unknown) :
    s.stepDiag = some { pc := s.pc, word := s.fetchWord } := by
  simp [State.stepDiag, hf, State.atEnd_eq_false_iff.mpr hpc, hd]

end Running

/-! ### A faulted block -/

theorem State.tickTimers_of_faulted (h : s.fault.isSome = true) : s.tickTimers = s := if_pos h

theorem State.setKeyPressed_of_faulted (h : s.fault.isSome = true) (code : BitVec 4) : s.setKeyPressed code = s :=
  if_pos h

theorem State.setKeyReleased_of_faulted (h : s.fault.isSome = true) : s.setKeyReleased = s := if_pos h

end Sys2Proof.Machine

open Sys2Proof Sys2Proof.Machine

/-- Settles O6: the word at PC is the two bytes of the statement, and `step_of_instr` runs what it decodes to. -/
theorem stepRunsDecodedInstruction : Obligations.StepRunsDecodedInstruction :=
  fun _ _ hf hpc hd => step_of_instr hf hpc hd

/-- Settles O7: each transaction looks at FAULT first. -/
theorem faultedBlockNeverMoves : Obligations.FaultedBlockNeverMoves := by
  intro s f hf
  have h : s.fault.isSome = true := by rw [hf]; rfl
  exact ⟨step_of_faulted h, s.tickTimers_of_faulted h, s.setKeyPressed_of_faulted h, s.setKeyReleased_of_faulted h⟩

/-- Settles O8: under either END_PC the bound of the statement is `atEnd`, and `step_of_atEnd` only sets EOP. -/
theorem stepAtEndOnlySetsEop : Obligations.StepAtEndOnlySetsEop := by
  intro s hf hpc
  refine step_of_atEnd hf (s.atEnd_iff.mpr ?_)
  cases he : s.params.endPc with
  | memTop => rw [he] at hpc; exact hpc
  | lastSlot => rw [he] at hpc; exact hpc

/-- Settles O9: the step answers `advance`, which sets PC alone. -/
theorem unknownWordOnlyAdvances : Obligations.UnknownWordOnlyAdvances := fun s hf hpc hd =>
  ⟨State.stepDiag_of_unknown hf hpc hd, s.advance, step_of_unknown hf hpc hd, rfl, (Frame.refl {} s).setPc _⟩

/-- Settles O10: the step raises the fault with the fetched word, and raising only records. -/
theorem unspecifiedWordFaults : Obligations.UnspecifiedWordFaults := fun s hf hpc hd =>
  ⟨_, step_of_unspecified hf hpc hd, faultsWith_raised _ s⟩
end

section
/-! Control transfer (41_control_flow.md): the jump, the four skips, and the pop that undoes a push. -/

namespace Sys2Proof.Machine

variable {c : Touched} {s t : State}

/-! ### A pop after a push -/

/-- A push below the end of the 16-bit range moves SP up by 2 without wrapping. -/
theorem toNat_sp_pushed (h : s.sp.toNat + 2 < 2 ^ 16) (w : Word) : (s.pushed w).sp.toNat = s.sp.toNat + 2 :=
  BitVec.toNat_add_of_lt h

theorem topOfStack_pushed (h : s.sp.toNat + 2 < 2 ^ 16) (w : Word) : (s.pushed w).topOfStack = w := by
  rw [State.topOfStack, toNat_sp_pushed h, Nat.add_sub_cancel, word_pushed]

theorem sp_popped_pushed (s : State) (w : Word) : (s.pushed w).popped.sp = s.sp :=
  BitVec.add_sub_cancel s.sp 2

theorem Frame.popped (h : Frame c s t) (hsp : c.sp = true) (hhi : t.sp.toNat - 2 ∈ c.bytes)
    (hlo : t.sp.toNat - 2 + 1 ∈ c.bytes) : Frame c s t.popped :=
  (h.setSp hsp _).setWord hhi hlo 0

/-- A frame need not name SP when SP has come back. -/
theorem Frame.of_sp_eq (h : Frame c s t) (hsp : t.sp = s.sp) : Frame { c with sp := false } s t :=
  { h with sp := fun _ => hsp }

/-- The pop takes SP back, so nothing but the two bytes of the frame has changed. -/
theorem frame_popped_pushed (h : s.sp.toNat + 2 < 2 ^ 16) (w : Word) :
    Frame { bytes := [s.sp.toNat, s.sp.toNat + 1] } s (s.pushed w).popped := by
  have htop : (s.pushed w).sp.toNat - 2 = s.sp.toNat := by rw [toNat_sp_pushed h, Nat.add_sub_cancel]
  have hframe := (frame_pushed s w).popped rfl (by simp [htop]) (by simp [htop])
  exact hframe.of_sp_eq (sp_popped_pushed s w)

theorem topOfStack_setPc (s : State) (a : Word) : (s.setPc a).topOfStack = s.topOfStack := rfl

theorem popped_setPc (s : State) (a : Word) : (s.setPc a).popped = s.popped.setPc a := rfl

theorem setPc_setPc (s : State) (a b : Word) : (s.setPc a).setPc b = s.setPc b := rfl

/-- A return takes the word pushed last and pops its frame, wherever PC has gone. -/
theorem exec_ret_pushed (hbase : stackBase.toNat ≤ s.sp.toNat) (hmem : s.sp.toNat + 2 ≤ memSize) (w a : Word) :
    exec .ret ((s.pushed w).setPc a) = .next ((s.pushed w).popped.setPc w) := by
  have hwrap : s.sp.toNat + 2 < 2 ^ 16 := Nat.lt_of_le_of_lt hmem (by decide)
  have hsp : ((s.pushed w).setPc a).sp.toNat = s.sp.toNat + 2 := toNat_sp_pushed hwrap w
  rw [exec_ret (by omega) (by omega), topOfStack_setPc, topOfStack_pushed hwrap, popped_setPc, setPc_setPc]

/-! ### Skips -/

/-- An instruction whose normal next state is a skip moves PC by 4 or by 2 (40_step_cycle.md R155) and nothing else. -/
theorem exec_skip {i : Instr} {p : Prop} [Decidable p] (hr : ∀ f ∈ readsOf i, s.has f = true) (hb : bounds i s)
    (hn : normal i s = s.skip (decide p)) :
    ∃ t, exec i s = .next t ∧ t.pc = (if p then s.pc + 4 else s.pc + 2) ∧ Frame {} s t := by
  refine ⟨s.skip (decide p), hn ▸ exec_normal hr hb, ?_, (Frame.refl _ s).setPc _⟩
  simp [State.skip_eq]

/-- The same for an instruction that skips when the condition fails. -/
theorem exec_skip_not {i : Instr} {p : Prop} [Decidable p] (hr : ∀ f ∈ readsOf i, s.has f = true) (hb : bounds i s)
    (hn : normal i s = s.skip (decide ¬p)) :
    ∃ t, exec i s = .next t ∧ t.pc = (if p then s.pc + 2 else s.pc + 4) ∧ Frame {} s t := by
  simpa only [ite_not] using exec_skip hr hb hn

end Sys2Proof.Machine

open Sys2Proof.Machine

/-- Settles O37: the call leaves the state `pushed`, the return goes to the word pushed (`exec_ret_pushed`), and its pop
takes SP back (`sp_popped_pushed`). -/
theorem returnUndoesCall : Obligations.ReturnUndoesCall := by
  intro nnn s hbase hlimit hmem
  have hwrap : s.sp.toNat + 2 < 2 ^ 16 := by omega
  exact ⟨_, _, exec_call nnn hlimit hmem, exec_ret_pushed hbase hmem _ _, rfl, sp_popped_pushed s _,
    (frame_popped_pushed hwrap _).setPc _⟩

/-- Settles O34: a jump reads nothing and sets PC alone. -/
theorem jpSetsPc : Obligations.JpSetsPc := fun nnn s =>
  ⟨_, exec_normal (i := .jp nnn) (by simp [readsOf]) trivial, toNat_addr16 nnn, (Frame.refl _ s).setPc _⟩

/-- Settles O38: each skip reads V[x] alone (`exec_skip`, `exec_skip_not`). -/
theorem skipsOnImmediate : Obligations.SkipsOnImmediate := fun x nn s hx =>
  ⟨exec_skip (i := .seImm x nn) (by simpa [readsOf] using hx) trivial rfl,
    exec_skip_not (i := .sneImm x nn) (by simpa [readsOf] using hx) trivial rfl⟩

/-- Settles O39: each skip reads V[x] and V[y] (`exec_skip`, `exec_skip_not`). -/
theorem skipsOnRegister : Obligations.SkipsOnRegister := fun x y s hx hy =>
  ⟨exec_skip (i := .seReg x y) (by simp [readsOf, hx, hy]) trivial rfl,
    exec_skip_not (i := .sneReg x y) (by simp [readsOf, hx, hy]) trivial rfl⟩
end

section
/-! Register loads, the ALU and the random byte (42_alu.md): the bytes and flags as arithmetic, and one rule for the
instructions that write V[x] and one for those that write V[x] and VF. -/

namespace Sys2Proof.Machine

variable {c : Touched} {s t : State}

/-! ### Results and flags as numbers (R190) -/

theorem toNat_sumByte (a b : Byte) : (sumByte a b).toNat = (a.toNat + b.toNat) % 256 :=
  BitVec.toNat_ofNat _ 8

theorem toNat_diffByte (a b : Byte) : (diffByte a b).toNat = (a.toNat + 256 - b.toNat) % 256 :=
  BitVec.toNat_ofNat _ 8

theorem toNat_halfByte (a : Byte) : (halfByte a).toNat = a.toNat / 2 :=
  (BitVec.toNat_ofNat _ 8).trans (Nat.mod_eq_of_lt (by omega))

theorem toNat_doubleByte (a : Byte) : (doubleByte a).toNat = a.toNat * 2 % 256 :=
  BitVec.toNat_ofNat _ 8

theorem boolByte_decide (p : Prop) [Decidable p] : boolByte (decide p) = if p then 1 else 0 := by
  simp [boolByte]

theorem toNat_lowBitFlag (a : Byte) : (lowBitFlag a).toNat = a.toNat % 2 :=
  (BitVec.toNat_and ..).trans (Nat.and_one_is_mod _)

theorem toNat_highBitFlag (a : Byte) : (highBitFlag a).toNat = a.toNat / 128 :=
  (BitVec.toNat_ushiftRight ..).trans (Nat.shiftRight_eq_div_pow _ 7)

/-! ### Frames of register writes and draws -/

theorem Frame.setV (h : Frame c s t) {x : RegIdx} (hx : x ∈ c.v) (b : Byte) : Frame c s (t.setV x b) :=
  { h with
    v := fun k hk => by
      have hne : k ≠ x := fun e => hk (e ▸ hx)
      simpa [State.getV_setV, hne] using h.v k hk }

theorem Frame.countDraw (h : Frame c s t) (hc : c.draws = true) : Frame c s t.countDraw :=
  { h with draws := fun hf => absurd (hc.symm.trans hf) (by decide) }

theorem Frame.setFlagThenResult (h : Frame c s t) {x : RegIdx} (hx : x ∈ c.v) (hvf : vf ∈ c.v)
    (flag result : Byte) : Frame c s (t.setFlagThenResult x flag result) := by
  rcases t.setFlagThenResult_cases x flag result with e | e
  · rw [e]; exact (h.setV hvf flag).setV hx result
  · rw [e]; exact (h.setV hx result).setV hvf flag

theorem Frame.setResultThenFlag (h : Frame c s t) {x : RegIdx} (hx : x ∈ c.v) (hvf : vf ∈ c.v)
    (result flag : Byte) : Frame c s (t.setResultThenFlag x result flag) := by
  rw [State.setResultThenFlag_eq]
  exact (h.setV hx result).setV hvf flag

/-! ### The instructions by what they write -/

theorem has_operand {x : RegIdx} (hx : s.has (.v x) = true) : ∀ f ∈ [Field.v x], s.has f = true :=
  List.forall_mem_singleton.mpr hx

theorem has_operands {x y : RegIdx} (hx : s.has (.v x) = true) (hy : s.has (.v y) = true) :
    ∀ f ∈ [Field.v x, Field.v y], s.has f = true :=
  List.forall_mem_cons.mpr ⟨hx, has_operand hy⟩

section Written
/-! The operands are written and the instruction is inside its bounds, so the answer is its normal next state. -/

variable {i : Instr} {x : RegIdx} (hr : ∀ f ∈ readsOf i, s.has f = true) (hb : bounds i s)
include hr hb

/-- An instruction whose normal next state is a write of V[x] and `advance`. -/
theorem exec_setV {b : Byte} (hn : normal i s = (s.setV x b).advance) :
    ∃ t, exec i s = .next t ∧ t.getV x = b ∧ t.has (.v x) = true ∧ t.pc = s.pc + 2 ∧ Frame { v := [x] } s t :=
  ⟨(s.setV x b).advance, hn ▸ exec_normal hr hb, s.getV_setV_same x b, by simp [State.advance_eq], rfl,
    ((Frame.refl _ s).setV (by simp) b).setPc _⟩

/-- An instruction whose normal next state is a write of V[x] and of VF and `advance`: with x = F the write that stays
is the one `VF_DEST_ORDER` says (R191). -/
theorem exec_setFlagThenResult {flag result : Byte} (hn : normal i s = (s.setFlagThenResult x flag result).advance) :
    ∃ t, exec i s = .next t ∧ (x ≠ 15 → t.getV x = result ∧ t.getV 15 = flag) ∧
      (x = 15 → t.getV 15 = (match s.params.vfDestOrder with | .listed => result | .flagLast => flag)) ∧
      t.has (.v 15) = true ∧ t.pc = s.pc + 2 ∧ Frame { v := [x, 15] } s t := by
  have hv (k : RegIdx) : (s.setFlagThenResult x flag result).advance.getV k = _ :=
    s.getV_setFlagThenResult x flag result k
  refine ⟨(s.setFlagThenResult x flag result).advance, hn ▸ exec_normal hr hb, fun hx => ?_, fun hx => ?_, ?_, ?_,
    ((Frame.refl _ s).setFlagThenResult (by simp) (by simp [vf]) flag result).setPc _⟩
  · have hne : x ≠ vf := hx
    exact ⟨(hv x).trans (by simp [hne]), (hv vf).trans (by simp [hne.symm])⟩
  · subst hx
    exact (hv 15).trans (if_pos ⟨rfl, rfl⟩)
  · rcases s.setFlagThenResult_cases x flag result with e | e <;> simp [e, State.advance_eq, vf]
  · rcases s.setFlagThenResult_cases x flag result with e | e <;> simp [e, State.advance_eq]

/-- An instruction whose normal next state is a write of V[x], then of VF, and `advance`: with x = F the flag stays
(R191). -/
theorem exec_setResultThenFlag {result flag : Byte} (hn : normal i s = (s.setResultThenFlag x result flag).advance) :
    ∃ t, exec i s = .next t ∧ t.getV 15 = flag ∧ (x ≠ 15 → t.getV x = result) ∧
      t.has (.v 15) = true ∧ t.pc = s.pc + 2 ∧ Frame { v := [x, 15] } s t := by
  have hv (k : RegIdx) : (s.setResultThenFlag x result flag).advance.getV k = _ :=
    s.getV_setResultThenFlag x result flag k
  refine ⟨(s.setResultThenFlag x result flag).advance, hn ▸ exec_normal hr hb, (hv 15).trans (if_pos rfl),
    fun hx => ?_, ?_, ?_, ((Frame.refl _ s).setResultThenFlag (by simp) (by simp [vf]) result flag).setPc _⟩
  · exact (hv x).trans ((if_neg hx).trans (if_pos rfl))
  · simp [State.setResultThenFlag_eq, State.advance_eq, vf]
  · simp [State.setResultThenFlag_eq, State.advance_eq]

end Written

end Sys2Proof.Machine

open Sys2Proof Sys2Proof.Machine

/-- Settles O28: the rule of the two writes with the carry as flag and the sum as result. -/
theorem addRegSumAndCarry : Obligations.AddRegSumAndCarry := by
  intro x y s hx hy
  obtain ⟨t, ht, hwrites⟩ := exec_setFlagThenResult (i := .addReg x y) (has_operands hx hy) trivial rfl
  exact ⟨t, _, _, ht, boolByte_decide _, toNat_sumByte _ _, hwrites⟩

/-- Settles O29: the rule of the two writes with the no-borrow flag and the difference. -/
theorem subRegDifferenceAndNoBorrow : Obligations.SubRegDifferenceAndNoBorrow := by
  intro x y s hx hy
  obtain ⟨t, ht, hwrites⟩ := exec_setFlagThenResult (i := .subReg x y) (has_operands hx hy) trivial rfl
  exact ⟨t, _, _, ht, boolByte_decide _, toNat_diffByte _ _, hwrites⟩

/-- Settles O30: the flag is written last under both orders, and flag and difference are of the old V[x] and V[y]. -/
theorem subnRegDifferenceAndNoBorrow : Obligations.SubnRegDifferenceAndNoBorrow := by
  intro x y s hx hy
  obtain ⟨t, ht, hflag, hresult, hrest⟩ :=
    exec_setResultThenFlag (i := .subnReg x y) (has_operands hx hy) trivial rfl
  refine ⟨t, ht, hflag.trans (boolByte_decide _), fun hne => ?_, hrest⟩
  rw [hresult hne, toNat_diffByte]

/-- Settles O31: each shift reads V[x] alone; the old bit 0 is the remainder by 2 and the old bit 7 the quotient by 128. -/
theorem shiftsByOnePlace : Obligations.ShiftsByOnePlace := by
  intro x y s hx
  constructor
  · obtain ⟨t, ht, hwrites⟩ := exec_setFlagThenResult (i := .shr x y) (has_operand hx) trivial rfl
    exact ⟨t, _, _, ht, toNat_lowBitFlag _, toNat_halfByte _, hwrites⟩
  · obtain ⟨t, ht, hwrites⟩ := exec_setFlagThenResult (i := .shl x y) (has_operand hx) trivial rfl
    exact ⟨t, _, _, ht, toNat_highBitFlag _, toNat_doubleByte _, hwrites⟩

/-- Settles O24: it reads nothing and writes V[x] alone (`exec_setV`). -/
theorem ldImmLoadsByte : Obligations.LdImmLoadsByte := fun x nn _ =>
  exec_setV (i := .ldImm x nn) (by simp [readsOf]) trivial rfl

/-- Settles O25: the byte written is the sum modulo 256 (`toNat_sumByte`), and the frame keeps VF. -/
theorem addImmWrapsWithoutFlag : Obligations.AddImmWrapsWithoutFlag := by
  intro x nn s hx
  obtain ⟨t, ht, hv, -, hrest⟩ := exec_setV (i := .addImm x nn) (has_operand hx) trivial rfl
  exact ⟨t, ht, by rw [hv, toNat_sumByte], hrest⟩

/-- Settles O26: it reads V[y] alone and writes V[x] alone. -/
theorem ldRegCopies : Obligations.LdRegCopies := fun x y _ hy =>
  exec_setV (i := .ldReg x y) (has_operand hy) trivial rfl

/-- Settles O27: the byte written is the operation of the two old bytes, and the frame keeps VF. -/
theorem logicIsBitwise : Obligations.LogicIsBitwise := by
  intro x y s hx hy
  refine ⟨?_, ?_, ?_⟩
  · obtain ⟨t, ht, hv, -, hrest⟩ := exec_setV (i := .orReg x y) (has_operands hx hy) trivial rfl
    exact ⟨t, ht, fun j => by rw [hv, BitVec.getLsbD_or], hrest⟩
  · obtain ⟨t, ht, hv, -, hrest⟩ := exec_setV (i := .andReg x y) (has_operands hx hy) trivial rfl
    exact ⟨t, ht, fun j => by rw [hv, BitVec.getLsbD_and], hrest⟩
  · obtain ⟨t, ht, hv, -, hrest⟩ := exec_setV (i := .xorReg x y) (has_operands hx hy) trivial rfl
    exact ⟨t, ht, fun j => by rw [hv, BitVec.getLsbD_xor], hrest⟩

/-- Settles O32: a bit outside nn is lost in the AND, whatever the byte drawn, and the draw is in the frame. -/
theorem rndMasksADrawnByte : Obligations.RndMasksADrawnByte := by
  intro x nn s
  have hv : (normal (.rnd x nn) s).getV x = Config.randByte s.draws &&& nn := s.getV_setV_same x _
  refine ⟨_, exec_normal (i := .rnd x nn) (by simp [readsOf]) trivial, hv, fun j hj => ?_, ?_, rfl, rfl,
    (((Frame.refl _ s).setV (by simp) _).countDraw rfl).setPc _⟩
  · rw [hv, BitVec.getLsbD_and, hj, Bool.and_false]
  · simp [normal, State.advance_eq]
end

section
/-! The address register and the bytes reached through it (43_index_memory.md): one rule for the instructions that write
I, and the frames of the stores and loads. -/

namespace Sys2Proof.Machine

variable {c : Touched} {s t : State}

/-! ### Words and digits as numbers -/

theorem toNat_wrap16 {n : Nat} (h : n ≤ 0xFFFF) : (wrap16 n).toNat = n :=
  (BitVec.toNat_ofNat n 16).trans (Nat.mod_eq_of_lt (Nat.lt_succ_of_le h))

theorem toNat_bcdHundreds (b : Byte) : (bcdHundreds b).toNat = b.toNat / 100 :=
  (BitVec.toNat_ofNat _ 8).trans (Nat.mod_eq_of_lt (by omega))

theorem toNat_bcdTens (b : Byte) : (bcdTens b).toNat = b.toNat / 10 % 10 :=
  (BitVec.toNat_ofNat _ 8).trans (Nat.mod_eq_of_lt (by omega))

theorem toNat_bcdOnes (b : Byte) : (bcdOnes b).toNat = b.toNat % 10 :=
  (BitVec.toNat_ofNat _ 8).trans (Nat.mod_eq_of_lt (by omega))

/-- A stride of 5 at most keeps every glyph address inside 16 bits, V[x] unmasked. -/
theorem glyphAddr_le (f : FontStride) (b : Byte) : fontBase + f.value * b.toNat ≤ 0xFFFF := by
  cases f <;> simp only [fontBase, FontStride.value] <;> omega

/-! ### Writes through I -/

theorem State.byte_setDigits (s : State) (base : Nat) (b : Byte) (a : Nat) :
    (s.setDigits base b).byte a =
      if a = base + 2 then bcdOnes b else if a = base + 1 then bcdTens b else if a = base then bcdHundreds b
      else s.byte a := by
  simp only [State.setDigits, State.byte_setByte]

theorem State.pc_storeRange (s : State) (base n : Nat) : (s.storeRange base n).pc = s.pc := by
  rw [State.storeRange_eq]

theorem State.pc_loadRange (s : State) (base n : Nat) : (s.loadRange base n).pc = s.pc := by
  rw [State.loadRange_eq]

theorem Frame.setI (h : Frame c s t) (hc : c.i = true) (w : Word) : Frame c s (t.setI w) :=
  { h with i := fun hf => absurd (hc.symm.trans hf) (by decide) }

theorem Frame.setDigits (h : Frame c s t) {base : Nat} (h0 : base ∈ c.bytes) (h1 : base + 1 ∈ c.bytes)
    (h2 : base + 2 ∈ c.bytes) (b : Byte) : Frame c s (t.setDigits base b) :=
  ((h.setByte h0 _).setByte h1 _).setByte h2 _

theorem Frame.storeRange (h : Frame c s t) {base n : Nat} (hc : ∀ k < n, base + k ∈ c.bytes) :
    Frame c s (t.storeRange base n) := by
  induction n with
  | zero => exact h
  | succ n ih => exact (ih fun k hk => hc k (Nat.lt_succ_of_lt hk)).setByte (hc n n.lt_succ_self) _

theorem Frame.loadRange (h : Frame c s t) {base n : Nat} (hc : ∀ k < n, regAt k ∈ c.v) :
    Frame c s (t.loadRange base n) := by
  induction n with
  | zero => exact h
  | succ n ih => exact (ih fun k hk => hc k (Nat.lt_succ_of_lt hk)).setV (hc n n.lt_succ_self) _

/-! ### The instructions that write I -/

/-- An instruction whose normal next state is a write of I and `advance`. -/
theorem exec_setI {i : Instr} {w : Word} (hr : ∀ f ∈ readsOf i, s.has f = true) (hb : bounds i s)
    (hn : normal i s = (s.setI w).advance) :
    ∃ t, exec i s = .next t ∧ t.i = w ∧ t.has .i = true ∧ t.pc = s.pc + 2 ∧ Frame { i := true } s t :=
  ⟨(s.setI w).advance, hn ▸ exec_normal hr hb, rfl, rfl, rfl, ((Frame.refl _ s).setI rfl w).setPc _⟩

end Sys2Proof.Machine

open Sys2Proof.Machine

/-- Settles O41: it reads nothing and writes I alone (`exec_setI`). -/
theorem ldISetsAddress : Obligations.LdISetsAddress := by
  intro nnn s
  obtain ⟨t, ht, hi, hrest⟩ := exec_setI (s := s) (i := .ldI nnn) (by simp [readsOf]) trivial rfl
  exact ⟨t, ht, by rw [hi, toNat_addr16], hrest⟩

/-- Settles O42: a sum that fits is the bound of the normal next state, and one that does not is the fault recorded. -/
theorem addIAddsOrFaults : Obligations.AddIAddsOrFaults := by
  intro x s hi hx
  have hr : ∀ f ∈ readsOf (.addI x), s.has f = true := by simp [readsOf, hi, hx]
  refine ⟨fun hfits => ?_, fun hover => exec_faultsWith hr (if_pos hover)⟩
  obtain ⟨t, ht, hsum, -, hrest⟩ := exec_setI hr hfits rfl
  exact ⟨t, ht, by rw [hsum, toNat_wrap16 hfits], hrest⟩

/-- Settles O43: no glyph address wraps (`glyphAddr_le`), and each stride is the number the parameter stands for. -/
theorem ldFPointsAtGlyph : Obligations.LdFPointsAtGlyph := by
  intro x s hx
  obtain ⟨t, ht, hi, hrest⟩ := exec_setI (i := .ldF x) (has_operand hx) trivial rfl
  refine ⟨t, ht, ?_, hrest⟩
  rw [hi, toNat_wrap16 (glyphAddr_le ..)]
  cases s.params.fontStride <;> rfl

/-- Settles O44: the three bytes are read off the writes (`State.byte_setDigits`), and no digit is lost in its byte. -/
theorem ldBStoresDigits : Obligations.LdBStoresDigits := by
  intro x s hx hi hmem
  have hbyte (a : Nat) : (normal (.ldB x) s).byte a = _ := s.byte_setDigits s.i.toNat (s.getV x) a
  refine ⟨_, exec_normal (i := .ldB x) (by simp [readsOf, hx, hi]) (Nat.succ_le_succ hmem), ?_, ?_, ?_, rfl,
    ((Frame.refl _ s).setDigits (by simp) (by simp) (by simp) _).setPc _⟩
  · simp [hbyte, toNat_bcdHundreds]
  · simp [hbyte, toNat_bcdTens]
  · simp [hbyte, toNat_bcdOnes]

/-- Settles O45: the bytes after the stores are `State.byte_storeRange`, and each address stored to is in the frame. -/
theorem storeRegsCopiesOut : Obligations.StoreRegsCopiesOut := by
  intro x s hi hv hmem
  refine ⟨_, exec_normal (has_readsOf_storeRegs hi hv) (Nat.succ_le_succ hmem), fun k hk => ?_,
    congrArg (· + 2) (s.pc_storeRange ..), ((Frame.refl _ s).storeRange fun k hk => ?_).setPc _⟩
  · have hbyte : (normal (.storeRegs x) s).byte (s.i.toNat + k.toNat) = _ :=
      s.byte_storeRange s.i.toNat (x.toNat + 1) (s.i.toNat + k.toNat)
    rw [hbyte, if_pos (by omega), Nat.add_sub_cancel_left, regAt_toNat]
  · exact List.mem_map_of_mem (List.mem_range.mpr hk)

/-- Settles O46: the registers after the loads are `State.getV_loadRange` and `State.has_loadRange`, and each register
loaded is in the frame. -/
theorem loadRegsCopiesIn : Obligations.LoadRegsCopiesIn := by
  intro x s hi hmem
  have hx : x.toNat + 1 ≤ 16 := x.isLt
  refine ⟨_, exec_normal (i := .loadRegs x) (by simp [readsOf, hi]) (Nat.succ_le_succ hmem), fun k hk => ⟨?_, ?_⟩,
    congrArg (· + 2) (s.pc_loadRange ..), ((Frame.refl _ s).loadRange fun k hk => ?_).setPc _⟩
  · exact (s.getV_loadRange s.i.toNat hx k).trans (if_pos (Nat.lt_succ_of_le hk))
  · refine (s.has_loadRange s.i.toNat hx k).trans ?_
    rw [decide_eq_true (Nat.lt_succ_of_le hk), Bool.true_or]
  · exact List.mem_map_of_mem (List.mem_range.mpr hk)

/-- Settles O47: by the frame of the store the load starts at the same I; a register up to x comes back from its byte,
and one above x is in neither frame. -/
theorem storeThenLoadRestoresRegisters : Obligations.StoreThenLoadRestoresRegisters := by
  intro x s hi hv hmem
  obtain ⟨t, ht, hstored, -, hst⟩ := storeRegsCopiesOut x s hi hv hmem
  obtain ⟨hti, hthas⟩ := hst.i rfl
  obtain ⟨u, hu, hloaded, -, htu⟩ := loadRegsCopiesIn x t (hthas.trans hi) (by rwa [hti])
  refine ⟨t, u, ht, hu, fun k => ?_, (htu.i rfl).1.trans hti, fun a => htu.bytes a List.not_mem_nil⟩
  by_cases hk : k.toNat ≤ x.toNat
  · calc u.getV k = t.byte (t.i.toNat + k.toNat) := (hloaded k hk).1
      _ = t.byte (s.i.toNat + k.toNat) := by rw [hti]
      _ = s.getV k := hstored k hk
  · have hkx : k ∉ writesV (.loadRegs x) := fun h => hk (Nat.le_of_lt_succ (mem_writesV_loadRegs.mp h))
    exact (htu.v k hkx).1.trans (hst.v k List.not_mem_nil).1
end

section
/-! The display (44_display.md): where a sprite byte lands, and what 00E0 and Dxyn write and leave alone. -/

namespace Sys2Proof.Machine

variable {c : Touched} {s t : State}

/-! ### Placement (R242) -/

/-- Bit `j` of the byte lands at bit `56 + j - ox` of the row, and bits below 0 are dropped. -/
theorem getLsbD_place (b : Byte) (ox i : Nat) :
    (place b ox).getLsbD i = (decide (56 ≤ ox + i ∧ ox + i < 64) && b.getLsbD (ox + i - 56)) := by
  rw [place, BitVec.getLsbD_ushiftRight, BitVec.getLsbD_shiftLeft, BitVec.getLsbD_setWidth]
  by_cases h : 56 ≤ ox + i ∧ ox + i < 64
  · have hlow : ¬ox + i < 56 := by omega
    have hbit : ox + i - 56 < 64 := by omega
    simp [h, hlow, hbit]
  · rw [decide_eq_false h, Bool.false_and]
    by_cases hlow : ox + i < 56
    · simp [hlow]
    · have hhigh : ¬ox + i < 64 := by omega
      simp [hhigh]

/-! ### Frames of row writes -/

theorem mem_allRows (r : RowIdx) : r ∈ (List.range 32).map fun k => BitVec.ofNat 5 k :=
  List.mem_map.mpr ⟨r.toNat, List.mem_range.mpr r.isLt, by simp⟩

theorem Frame.clearRows (h : Frame c s t) (hc : ∀ r, r ∈ c.rows) : Frame c s t.clearRows :=
  { h with rows := fun r hr => absurd (hc r) hr }

theorem Frame.setRow (h : Frame c s t) {r : RowIdx} (hr : r ∈ c.rows) (w : Row) : Frame c s (t.setRow r w) :=
  { h with
    rows := fun k hk => by
      have hne : k ≠ r := fun e => hk (e ▸ hr)
      simpa [State.getRow_setRow, hne] using h.rows k hk }

theorem Frame.xorRow (h : Frame c s t) (hvf : vf ∈ c.v) {r : RowIdx} (hr : r ∈ c.rows) (p : Row) :
    Frame c s (t.xorRow r p) := by
  unfold State.xorRow
  split
  · exact h.setRow hr _
  · exact (h.setRow hr _).setV hvf 1

theorem Frame.drawRows (h : Frame c s t) (hvf : vf ∈ c.v) {base ox oy n : Nat}
    (hr : ∀ k < n, rowAt (oy + k) ∈ c.rows) : Frame c s (t.drawRows base ox oy n) := by
  induction n with
  | zero => exact h
  | succ n ih => exact (ih fun k hk => hr k (Nat.lt_succ_of_lt hk)).xorRow hvf (hr n n.lt_succ_self) _

/-! ### A draw that raises no fault (R243, R244) -/

theorem toNat_rowAt {k : Nat} (h : k < 32) : (rowAt k).toNat = k :=
  (BitVec.toNat_ofNat k 5).trans (Nat.mod_eq_of_lt h)

theorem State.pc_drawRows (s : State) (base ox oy n : Nat) : (s.drawRows base ox oy n).pc = s.pc := by
  rw [State.drawRows_eq]

/-- Drawn row `k` of the sprite, XORed into the row of the display it falls on. -/
theorem getRow_normal_drw {x y : RegIdx} {n : BitVec 4} {k : Nat} (hk : k < spriteRows y n s) :
    (normal (.drw x y n) s).getRow (rowAt (originY (s.getV y) + k)) =
      s.getRow (rowAt (originY (s.getV y) + k)) ^^^ place (s.byte (s.i.toNat + k)) (originX (s.getV x)) := by
  have hrows : originY (s.getV y) + spriteRows y n s ≤ 32 := originY_add_drawnRows_le n _
  have hrow : (rowAt (originY (s.getV y) + k)).toNat = originY (s.getV y) + k := toNat_rowAt (by omega)
  refine ((s.setV vf 0).getRow_drawRows s.i.toNat _ _ hrows _).trans ?_
  rw [hrow, if_pos (by omega), Nat.add_sub_cancel_left]
  rfl

/-- VF is reset, then set by a drawn row that erases a lit pixel. -/
theorem getV_vf_normal_drw (x y : RegIdx) (n : BitVec 4) (s : State) :
    (normal (.drw x y n) s).getV vf =
      if ∃ k, k < spriteRows y n s ∧ s.getRow (rowAt (originY (s.getV y) + k)) &&&
          place (s.byte (s.i.toNat + k)) (originX (s.getV x)) ≠ 0 then 1 else 0 := by
  have hrows : originY (s.getV y) + spriteRows y n s ≤ 32 := originY_add_drawnRows_le n _
  refine ((s.setV vf 0).getV_drawRows s.i.toNat _ _ hrows vf).trans ?_
  simp

theorem has_vf_normal_drw (x y : RegIdx) (n : BitVec 4) (s : State) :
    (normal (.drw x y n) s).has (.v vf) = true :=
  (State.has_setPc ..).trans ((s.setV vf 0).has_drawRows_of_has _ _ _ _ (by simp))

/-- A draw changes VF, the rows it draws and PC. -/
theorem frame_normal_drw (x y : RegIdx) (n : BitVec 4) (s : State) :
    Frame { v := [vf], rows := (List.range (spriteRows y n s)).map fun k => rowAt (originY (s.getV y) + k) } s
      (normal (.drw x y n) s) :=
  (((Frame.refl _ s).setV (by simp) 0).drawRows (by simp)
    fun _ hk => List.mem_map_of_mem (List.mem_range.mpr hk)).setPc _

end Sys2Proof.Machine

open Sys2Proof.Machine

/-- Settles O51: with operands, range and rows checked the answer is the normal next state, and the lemmas on
`normal (.drw x y n)` read off its rows, VF and frame. -/
theorem drwXorsAndReportsCollision : Obligations.DrwXorsAndReportsCollision := by
  rintro x y n s _ _ _ rfl rfl rfl hx hy hi hmem hrows
  have hvf := getV_vf_normal_drw x y n s
  refine ⟨_, exec_normal (i := .drw x y n) (by simp [readsOf, hx, hy, hi]) ⟨hmem, ?_⟩,
    fun k hk => getRow_normal_drw hk, ?_, ?_, ?_, congrArg (· + 2) (State.pc_drawRows ..), frame_normal_drw x y n s⟩
  · exact List.forall_mem_map.mpr fun k hk => hrows k (List.mem_range.mp hk)
  · exact (ite_eq_or_eq _ 1 0).imp hvf.trans hvf.trans
  · exact (Eq.congr_left hvf).trans (Ne.ite_eq_left_iff (by decide))
  · exact has_vf_normal_drw x y n s

/-- Settles O52: the first draw leaves origin, I and sprite as they were (its frame), so the second XORs the same pattern
into the same rows, and XOR undoes itself. -/
theorem drawTwiceRestoresDisplay : Obligations.DrawTwiceRestoresDisplay := by
  intro x y n s hxf hyf hx hy hi hdisp hmem
  obtain ⟨t, ht, hfirst, -, -, -, -, hst⟩ :=
    drwXorsAndReportsCollision x y n s _ _ _ rfl rfl rfl hx hy hi hmem fun k _ => hdisp _
  obtain ⟨hvx, -⟩ := hst.v x (by simpa using hxf)
  obtain ⟨hvy, -⟩ := hst.v y (by simpa using hyf)
  obtain ⟨hti, -⟩ := hst.i rfl
  have hbyte (a : Nat) : t.byte a = s.byte a := hst.bytes a List.not_mem_nil
  obtain ⟨u, hu, hsecond, -, -, -, -, htu⟩ :=
    drwXorsAndReportsCollision x y n t _ _ _ rfl rfl rfl (exec_has ht hx) (exec_has ht hy) (exec_has ht hi)
      (by rwa [hti, hvy]) fun k _ => exec_has ht (hdisp _)
  rw [hvx, hvy, hti] at hsecond
  rw [hvy] at htu
  refine ⟨t, u, ht, hu, fun r => ?_⟩
  by_cases hr : r ∈ (List.range (min n.toNat (32 - (s.getV y).toNat % 32))).map
      fun k => BitVec.ofNat 5 ((s.getV y).toNat % 32 + k)
  · obtain ⟨k, hk, rfl⟩ := List.mem_map.mp hr
    have hk := List.mem_range.mp hk
    rw [hsecond k hk, hfirst k hk, hbyte, BitVec.xor_assoc, BitVec.xor_self, BitVec.xor_zero]
  · exact (htu.rows r hr).1.trans (hst.rows r hr).1

/-- Settles O50: the pixel at column c is bit 63 - c of the row. -/
theorem placeShiftsAndClips : Obligations.PlaceShiftsAndClips := by
  intro b ox c hox hc
  rw [getLsbD_place]
  have hbit : ox + (63 - c) - 56 = ox + 7 - c := by omega
  have hcol : (56 ≤ ox + (63 - c) ∧ ox + (63 - c) < 64) ↔ (ox ≤ c ∧ c ≤ ox + 7) := by omega
  rw [hbit, decide_eq_decide.mpr hcol]

/-- Settles O49: it reads nothing, and every row is in its frame. -/
theorem clsClearsEveryRow : Obligations.ClsClearsEveryRow := fun s =>
  ⟨s.clearRows.advance, exec_normal (i := .cls) (by simp [readsOf]) trivial,
    fun r => ⟨s.getRow_clearRows r, by simp [State.advance_eq]⟩, rfl, ((Frame.refl _ s).clearRows mem_allRows).setPc _⟩
end

section
/-! Keys and timers (45_timers_keys.md): the comparison of KEY with a register, and what the key and timer instructions
write and leave alone. -/

namespace Sys2Proof.Machine

variable {c : Touched} {s t : State}

/-! ### The key comparison (R260) -/

/-- A key code of 4 bits loses nothing in a byte. -/
theorem toNat_keyByte (k : BitVec 4) : (k.setWidth 8).toNat = k.toNat :=
  BitVec.toNat_setWidth_of_le (by decide)

theorem keyEq_some_iff (n : KeyNoneCode) (k : BitVec 4) (b : Byte) :
    keyEq n (some k) b = true ↔ k.toNat = b.toNat := by
  rw [keyEq, decide_eq_true_iff, ← BitVec.toNat_inj, toNat_keyByte]

theorem keyEq_none_iff (n : KeyNoneCode) (b : Byte) : keyEq n none b = true ↔ n = .code b := by
  cases n with
  | code c => simp [keyEq, eq_comm]
  | unequal => simp [keyEq]

theorem has_key_operand {x : RegIdx} (hk : s.has .key = true) (hx : s.has (.v x) = true) :
    ∀ f ∈ [Field.key, Field.v x], s.has f = true :=
  List.forall_mem_cons.mpr ⟨hk, has_operand hx⟩

/-! ### Frames of timer writes -/

theorem Frame.setDt (h : Frame c s t) (hc : c.dt = true) (b : Byte) : Frame c s (t.setDt b) :=
  { h with dt := fun hf => absurd (hc.symm.trans hf) (by decide) }

theorem Frame.setSt (h : Frame c s t) (hc : c.st = true) (b : Byte) : Frame c s (t.setSt b) :=
  { h with st := fun hf => absurd (hc.symm.trans hf) (by decide) }

end Sys2Proof.Machine

open Sys2Proof.Machine

/-- Settles O54: `equal` is the key comparison, by cases on KEY (`keyEq_some_iff`, `keyEq_none_iff`), and each instruction
is a skip on it (`exec_skip`, `exec_skip_not`). -/
theorem skipsOnKey : Obligations.SkipsOnKey := by
  intro x s equal hkey hx hequal
  have heq : equal = keyEq s.params.keyNone s.key (s.getV x) := by
    refine Bool.eq_iff_iff.mpr (hequal.trans ?_)
    cases s.key with
    | none => exact (keyEq_none_iff ..).symm
    | some k => exact (keyEq_some_iff ..).symm
  subst heq
  have hr := has_key_operand hkey hx
  refine ⟨exec_skip (i := .skp x) hr trivial ?_, exec_skip_not (i := .sknp x) hr trivial ?_⟩
  · rw [Bool.decide_eq_true]; rfl
  · rw [decide_not, Bool.decide_eq_true]; rfl

/-- Settles O55: with a key the normal next state is a write of V[x] and `advance` (`exec_setV`), with none it is the state
itself. -/
theorem waitForKeyReexecutes : Obligations.WaitForKeyReexecutes := by
  intro x s hkey
  have hr : ∀ f ∈ readsOf (.ldVxK x), s.has f = true := List.forall_mem_singleton.mpr hkey
  refine ⟨fun k hk => ?_, fun hk => ?_⟩
  · obtain ⟨t, ht, hv, hrest⟩ := exec_setV hr trivial (normal_ldVxK_some hk)
    exact ⟨t, ht, by rw [hv, toNat_keyByte], hrest⟩
  · rw [exec_normal hr trivial, normal_ldVxK_none hk]

/-- Settles O56: the read of DT writes V[x] alone (`exec_setV`), and each timer write is in the frame that names it. -/
theorem timersAreCopied : Obligations.TimersAreCopied := by
  refine fun x s => ⟨fun hdt => ?_, fun hx => ?_, fun hx => ?_⟩
  · exact exec_setV (i := .ldVxDt x) (List.forall_mem_singleton.mpr hdt) trivial rfl
  · exact ⟨_, exec_normal (i := .ldDtVx x) (has_operand hx) trivial, rfl, rfl, rfl,
      ((Frame.refl _ s).setDt rfl _).setPc _⟩
  · exact ⟨_, exec_normal (i := .ldStVx x) (has_operand hx) trivial, rfl, rfl, rfl,
      ((Frame.refl _ s).setSt rfl _).setPc _⟩
end

section
/-! The host's transactions (60_exceptions.md R308, R314 to R322; 70_reset_and_hazards.md R352 to R354): an equation for each
effect, what a transaction can do to a session, and the invariant of a session along a schedule. -/

namespace Sys2Proof.Machine

variable {s : State} {q q' : Session}

/-! ### Ticks and key inputs -/

/-- The subtraction on naturals stops at 0 as the timer does. -/
theorem toNat_tickedDown (t : Byte) : (tickedDown t).toNat = t.toNat - 1 := by
  unfold tickedDown
  split <;> bv_omega

theorem State.tickTimers_of_running (hf : s.fault = none) :
    s.tickTimers = { s with
      dt := if s.has .dt then tickedDown s.dt else s.dt
      st := if s.has .st then tickedDown s.st else s.st } :=
  if_neg (by simp [hf])

theorem State.setKeyPressed_of_running (hf : s.fault = none) (code : BitVec 4) :
    s.setKeyPressed code = s.setKey (some code) := if_neg (by simp [hf])

theorem State.setKeyReleased_of_running (hf : s.fault = none) : s.setKeyReleased = s.setKey none :=
  if_neg (by simp [hf])

/-- The effect of a transaction that is neither a load nor a step: an output read, a tick or a key input. -/
inductive HostInput (s : State) : State → Prop where
  | read : HostInput s s
  | tick : HostInput s s.tickTimers
  | press (code : BitVec 4) : HostInput s (s.setKeyPressed code)
  | release : HostInput s s.setKeyReleased

theorem HostInput.faulted {t : State} (h : HostInput s t) (hf : s.fault.isSome = true) : t = s := by
  cases h with
  | read => rfl
  | tick => exact s.tickTimers_of_faulted hf
  | press code => exact s.setKeyPressed_of_faulted hf code
  | release => exact s.setKeyReleased_of_faulted hf

/-- Host inputs write timers, KEY and WRITTEN, of which the invariant says nothing. -/
theorem HostInput.keeps {t : State} (h : HostInput s t) :
    t.fault = s.fault ∧ (s.Inv → t.Inv) := by
  cases hf : s.fault with
  | some f => rw [h.faulted (by simp [hf])]; exact ⟨hf, id⟩
  | none =>
    cases h with
    | read => exact ⟨hf, id⟩
    | tick => rw [State.tickTimers_of_running hf]; exact ⟨hf, fun hs => { hs with }⟩
    | press code => rw [State.setKeyPressed_of_running hf]; exact ⟨hf, fun hs => { hs with }⟩
    | release => rw [State.setKeyReleased_of_running hf]; exact ⟨hf, fun hs => { hs with }⟩

/-! ### Loading -/

theorem State.loadProgram_of_tooLarge {bytes : List Byte} (h : progSpace ≤ bytes.length) : s.loadProgram bytes = s := by
  simp [State.loadProgram, loadResult, h]

theorem State.loadProgram_of_fits {bytes : List Byte} (h : bytes.length < progSpace) :
    s.loadProgram bytes = { s with mem := Mem.writeAll progBase bytes s.mem } := by
  simp [State.loadProgram, loadResult, Nat.not_le.mpr h]

/-- Without a recorded fault no word in memory is spoken of, so a load keeps the invariant. -/
theorem State.Inv.loadProgram (h : s.Inv) (hf : s.fault = none) (bytes : List Byte) : (s.loadProgram bytes).Inv := by
  rcases Nat.lt_or_ge bytes.length progSpace with hfits | hlarge
  · have hend : progBase + bytes.length ≤ memSize := by
      simp only [progSpace, memSize, progBase] at hfits ⊢
      omega
    rw [State.loadProgram_of_fits hfits]
    exact { h with
      mem := Mem.wf_writeAll bytes h.mem hend
      fault := fun f hf' => nomatch hf.symm.trans hf' }
  · rw [State.loadProgram_of_tooLarge hlarge]
    exact h

/-! ### What a transaction can do -/

theorem Session.transact_load (h : q.loadable = true) (bytes : List Byte) :
    q.transact (.loadProgram bytes) =
      .next ({ state := q.state.loadProgram bytes, loadable := false }, .loaded (loadResult bytes)) := if_pos h

theorem Session.transact_load_refused (h : q.loadable = false) (bytes : List Byte) :
    q.transact (.loadProgram bytes) = .refused .loadNotAdmitted := if_neg (by simp [h])

theorem Session.transact_step {t : State} (h : Machine.step q.state = .next t) :
    q.transact .step = .next ({ state := t, loadable := false }, .stepped q.state.stepDiag) := by
  simp [Session.transact, h]

theorem Session.transact_setKeyPressed {code : Nat} (h : code < 16) :
    q.transact (.setKeyPressed code) = .next (q.at (q.state.setKeyPressed (BitVec.ofNat 4 code)), .nothing) := if_pos h

theorem Session.transact_setKeyPressed_refused {code : Nat} (h : 15 < code) :
    q.transact (.setKeyPressed code) = .refused (.keyCodeAbove15 code) := if_neg (Nat.not_lt.mpr h)

/-- Everything an admitted transaction can do: load while that is a move, step, or else give a host input and leave the
admission of a load as it is. -/
theorem Session.transact_cases {t : Transaction} {a : Response} (h : q.transact t = .next (q', a)) :
    (∃ bytes, t = .loadProgram bytes ∧ q.loadable = true ∧
      q' = { state := q.state.loadProgram bytes, loadable := false }) ∨
    (t = .step ∧ ∃ s, Machine.step q.state = .next s ∧ q' = { state := s, loadable := false }) ∨
    (t ≠ .step ∧ (∀ bytes, t ≠ .loadProgram bytes) ∧ ∃ s, HostInput q.state s ∧ q' = q.at s) := by
  cases t with
  | loadProgram bytes =>
    left
    cases hl : q.loadable with
    | true => rw [transact_load hl] at h; cases h; exact ⟨bytes, rfl, rfl, rfl⟩
    | false => rw [transact_load_refused hl] at h; cases h
  | step =>
    right; left
    obtain ⟨s, hs⟩ := step_total q.state
    rw [transact_step hs] at h
    cases h
    exact ⟨rfl, s, hs, rfl⟩
  | setKeyPressed code =>
    right; right
    rcases Nat.lt_or_ge code 16 with hc | hc
    · rw [transact_setKeyPressed hc] at h; cases h; exact ⟨nofun, nofun, _, .press _, rfl⟩
    · rw [transact_setKeyPressed_refused hc] at h; cases h
  | tickTimers => cases h; exact .inr (.inr ⟨nofun, nofun, _, .tick, rfl⟩)
  | setKeyReleased => cases h; exact .inr (.inr ⟨nofun, nofun, _, .release, rfl⟩)
  | displayRows | isSoundActive | isEndOfProgram => cases h; exact .inr (.inr ⟨nofun, nofun, _, .read, rfl⟩)

/-- A load stays a move exactly through the transactions that are neither a load nor a step (R354). -/
theorem Session.loadable_transact {t : Transaction} {a : Response} (h : q.transact t = .next (q', a)) :
    q'.loadable = true ↔ q.loadable = true ∧ t ≠ .step ∧ ∀ bytes, t ≠ .loadProgram bytes := by
  rcases transact_cases h with ⟨bytes, rfl, -, rfl⟩ | ⟨rfl, s, -, rfl⟩ | ⟨hstep, hload, s, -, rfl⟩
  · exact ⟨nofun, fun ⟨_, _, hload⟩ => absurd rfl (hload bytes)⟩
  · exact ⟨nofun, fun ⟨_, hstep, _⟩ => absurd rfl hstep⟩
  · exact ⟨fun hl => ⟨hl, hstep, hload⟩, fun ⟨hl, _⟩ => hl⟩

/-! ### Along a schedule -/

theorem Session.Inv.transact {t : Transaction} {a : Response} (hq : q.Inv) (h : q.transact t = .next (q', a)) :
    q'.Inv := by
  rcases Session.transact_cases h with ⟨bytes, -, hl, rfl⟩ | ⟨-, s, hs, rfl⟩ | ⟨-, -, s, hs, rfl⟩
  · exact ⟨hq.state.loadProgram (hq.loadable hl) bytes, nofun⟩
  · exact ⟨stepKeepsInvariant q.state s hq.state hs, nofun⟩
  · obtain ⟨hfault, hinv⟩ := hs.keeps
    exact ⟨hinv hq.state, fun hl => hfault.trans (hq.loadable hl)⟩

/-- What every admitted transaction keeps holds after every schedule. -/
theorem Session.run_keeps {P : Session → Prop}
    (hP : ∀ (q q' : Session) (t : Transaction) (a : Response), P q → q.transact t = .next (q', a) → P q')
    (ts : List Transaction) (hq : P q) (h : Session.run ts q = .next q') : P q' := by
  induction ts generalizing q with
  | nil => cases h; exact hq
  | cons t ts ih =>
    unfold Session.run at h
    split at h
    · next q₁ a ht => exact ih (hP q q₁ t a hq ht) h
    · cases h
    · cases h

/-! ### The outputs -/

theorem State.length_displayRows (s : State) : s.displayRows.length = 32 := by simp [State.displayRows]

theorem State.getElem?_displayRows (s : State) (r : RowIdx) :
    s.displayRows[r.toNat]? = some (if s.has (.disp r) then some (s.getRow r) else none) := by
  simp [State.displayRows, List.getElem?_range r.isLt]

theorem State.isSoundActive_eq (s : State) :
    s.isSoundActive = if s.has .st then some (decide (s.st ≠ 0)) else none := by
  have hpos : 0 < s.st.toNat ↔ s.st ≠ 0 := by bv_omega
  simp only [State.isSoundActive, hpos]

end Sys2Proof.Machine

open Sys2Proof.Machine

/-- Settles O14: each transaction keeps the invariant of a session (`Session.Inv.transact`), so every schedule does. -/
theorem schedulesKeepInvariant : Obligations.SchedulesKeepInvariant :=
  fun ts _ _ hq h => Session.run_keeps (fun _ _ _ _ hq ht => hq.transact ht) ts hq h

/-- Settles O57: an unfaulted block takes the effect itself, and a timer counts down as a natural number. -/
theorem hostInputsChangeTheirFields : Obligations.HostInputsChangeTheirFields := by
  intro s hf
  refine ⟨?_, State.setKeyPressed_of_running hf, State.setKeyReleased_of_running hf⟩
  rw [State.tickTimers_of_running hf]
  refine ⟨rfl, ?_, ?_⟩ <;> rw [← toNat_tickedDown, ← apply_ite BitVec.toNat]

/-- Settles O58: the outputs are read off their definitions, each other transaction has its equation, and
`Session.loadable_transact` says when a load is still a move. -/
theorem outputsAndRefusedMoves : Obligations.OutputsAndRefusedMoves := by
  refine ⟨fun q r => ⟨q.state.length_displayRows, q.state.getElem?_displayRows r, q.state.isSoundActive_eq, rfl, rfl, rfl⟩,
    fun _ bytes hl => Session.transact_load hl bytes, fun _ _ hs => Session.transact_step hs, fun _ => ⟨rfl, rfl⟩,
    fun q code => ?_, fun _ bytes hl => Session.transact_load_refused hl bytes,
    fun _ _ hc => Session.transact_setKeyPressed_refused hc, fun _ _ _ _ h => Session.loadable_transact h⟩
  rw [Session.transact_setKeyPressed code.isLt, BitVec.ofNat_toNat, BitVec.setWidth_eq]
  rfl
end


section
/-! Program loading (70_reset_and_hazards.md R352, R353): which ROMs load, and the bytes after a load. -/

namespace Sys2Proof.Machine

variable {bytes : List Byte}

theorem loadResult_of_tooLarge (h : progSpace ≤ bytes.length) : loadResult bytes = .romTooLarge := if_pos h

theorem loadResult_of_fits (h : bytes.length < progSpace) : loadResult bytes = .ok := if_neg (Nat.not_le.mpr h)

/-- A ROM that fits stands at the program base, and every other byte is as before. -/
theorem State.byte_loadProgram (s : State) (h : bytes.length < progSpace) (a : Nat) :
    (s.loadProgram bytes).byte a =
      if progBase ≤ a ∧ a < progBase + bytes.length then bytes.getD (a - progBase) 0 else s.byte a := by
  rw [State.loadProgram_of_fits h]
  exact Mem.read_writeAll bytes progBase s.mem a

end Sys2Proof.Machine

open Sys2Proof.Machine

/-- Settles O59: a ROM shorter than the 3584 bytes of program space is read off the writes of its bytes
(`State.byte_loadProgram`), and any other is refused. -/
theorem loadProgramCopiesVerbatim : Obligations.LoadProgramCopiesVerbatim := by
  intro s bytes
  refine ⟨fun hfits => ?_, fun hlarge => ⟨loadResult_of_tooLarge hlarge, State.loadProgram_of_tooLarge hlarge⟩⟩
  have hlt : bytes.length < progSpace := Nat.lt_succ_of_le hfits
  refine ⟨loadResult_of_fits hlt, by rw [State.loadProgram_of_fits hlt], fun k hk => ?_, fun a ha => ?_⟩
  · rw [State.byte_loadProgram s hlt, if_pos (by simp only [progBase]; omega)]
    simp [progBase, hk]
  · rw [State.byte_loadProgram s hlt, if_neg (by simp only [progBase]; omega)]
end
